-- ==== Sys2Proof/Word.lean ====
section
/-! DEFINITION. The two word types of the block (spec/30_encoding.md rules R60 and R62). -/

namespace Sys2Proof

/-- One 8-bit byte: a byte of the buffer, of a command or of a response, or an output byte of the
encoder (rules R40, R62, R67). -/
abbrev Byte := BitVec 8

/-- One input sample: a 16-bit two's-complement pattern. Its value is `BitVec.toInt`, which is the
`sext_16` of rule R8 (rule R60: every one of the 65536 patterns is a legal input). -/
abbrev Sample := BitVec 16

end Sys2Proof
end

