-- ==== Sys2Proof/Config.lean ====
section
/-! DEFINITION. What is fixed when the block is built (spec/00_scope.md rule R6, spec/10_state.md
rule R25), and the two parameters the spec leaves OPEN. The values THIS hardware takes stand in
`Sys2Proof.Machine.hw` (Sys2Proof/Machine/Operands.lean); `stepWith` and `execWith`
(Sys2Proof/Machine/Configured.lean) take any configuration as an argument. -/

namespace Sys2Proof

/-- The block's configuration (rules R6 and R25). It is no state: no command reads or writes it. -/
structure Config where
  /-- `SEG0_SHIFT`: the mantissa shift in segment 0, 3 or 4 (rule R145). -/
  seg0Shift : Nat
  /-- `SCAN_LAST_WINDOW`: whether the window that starts at `L − 4` is examined (rule R102). -/
  scanLastWindow : Bool
  /-- `MAX_LEN`: the largest buffer length the block accepts (rule R40). -/
  maxLen : Nat
  /-- `ENC_LANES`: how many samples are encoded in parallel; not observable (rule R151). -/
  encLanes : Nat
  deriving DecidableEq, Repr

/-- The values rule R6 allows. -/
def Config.legal (c : Config) : Bool :=
  (c.seg0Shift == 3 || c.seg0Shift == 4) && decide (17 ≤ c.maxLen) &&
    decide (c.maxLen ≤ 2 ^ 63 - 1) && decide (1 ≤ c.encLanes)

/-- Free value: the OPEN part of `MAX_LEN`. Nothing constrains it (assumption log 6). -/
opaque Config.maxLenFree : Nat

/-- Free value: the OPEN part of `ENC_LANES`. Nothing constrains it (assumption log 7). -/
opaque Config.encLanesFree : Nat

end Sys2Proof
end

