-- ==== Sys2Proof/Syntax.lean ====
section
/-! DEFINITION. The commands of the block as abstract terms: one constructor per mnemonic of
spec/opcode_table.json (spec/30_encoding.md rules R70 and R71). -/

namespace Sys2Proof

/-- A ChunkId: exactly four bytes, in the order in which they are compared with ascending buffer
addresses (rules R10, R45, R65). -/
structure ChunkId where
  b0 : Byte
  b1 : Byte
  b2 : Byte
  b3 : Byte
  deriving DecidableEq, Repr

/-- A chunk id as the list of its four bytes (rule R10). -/
def ChunkId.toList (id : ChunkId) : List Byte := [id.b0, id.b1, id.b2, id.b3]

/-- The commands. Operands arrive with the command (rule R22); no command names a register. -/
inductive Instr where
  /-- `ULAW_ENC`, format `CS`: encode one sample (rule R150). -/
  | ulawEnc (x : Sample)
  /-- `ULAW_ENC_SEQ`, format `CLS`: encode a list of samples (rule R151). -/
  | ulawEncSeq (xs : List Sample)
  /-- `CHUNK_FIND`, format `CI`: the first offset at which the buffer holds the id (rule R100). -/
  | chunkFind (id : ChunkId)
  /-- `DATA_EXTRACT`, format `C0`: address and size of the data chunk's payload (rule R120). -/
  | dataExtract
  /-- `PCM_UNPACK`, format `CLB`: the samples a list of payload bytes encodes (rule R125). -/
  | pcmUnpack (bs : List Byte)
  /-- `WAV_TO_ULAW`, format `C0`: the data chunk as output bytes (rule R170). -/
  | wavToUlaw
  /-- `ILLEGAL`: a reserved command byte, kept as it came (rule R71). The seven `ILLEGAL` rows of
  the opcode table are the seven masks that together cover the reserved bytes. -/
  | illegal (op : Byte)
  deriving DecidableEq, Repr

/-- The table's mnemonic of a command (spec/opcode_table.json). -/
def Instr.mnemonic : Instr → String
  | .ulawEnc _ => "ULAW_ENC"
  | .ulawEncSeq _ => "ULAW_ENC_SEQ"
  | .chunkFind _ => "CHUNK_FIND"
  | .dataExtract => "DATA_EXTRACT"
  | .pcmUnpack _ => "PCM_UNPACK"
  | .wavToUlaw => "WAV_TO_ULAW"
  | .illegal _ => "ILLEGAL"

/-- Which commands read the attached buffer (rule R27): `CHUNK_FIND`, `DATA_EXTRACT` and
`WAV_TO_ULAW` do, the others do not. -/
def Instr.readsBuffer : Instr → Bool
  | .ulawEnc _ => false
  | .ulawEncSeq _ => false
  | .chunkFind _ => true
  | .dataExtract => true
  | .pcmUnpack _ => false
  | .wavToUlaw => true
  | .illegal _ => false

end Sys2Proof
end

