-- ==== Sys2Proof/Machine/Operands.lean ====
section
/-! DEFINITION. The values of this hardware's configuration, and every operand form of the spec:
little-endian assembly, sign extension and their inverses (spec/00_scope.md rules R6 to R9,
spec/20_memory.md rule R44, spec/30_encoding.md rules R60, R61, R65, R67 and R69). -/

namespace Sys2Proof.Machine

/-- The configuration of this hardware (rule R6): `SEG0_SHIFT = 3` (90_conflicts.md C1;
assumption log 8), `SCAN_LAST_WINDOW = false` (C2; assumption log 9), `MAX_LEN` any value in `17 .. 2^63 − 1`, `ENC_LANES` any value
`≥ 1`. -/
def hw : Config :=
  { seg0Shift := 3
    scanLastWindow := false
    maxLen := 17 + Config.maxLenFree % (2 ^ 63 - 17)
    encLanes := 1 + Config.encLanesFree }

/-- `SCAN_START` (rule R101). -/
def scanStart : Nat := 12

/-- `CLIP` (rule R142). -/
def clip : Nat := 32635

/-- `BIAS` (rule R143). -/
def bias : Nat := 132

/-- `LE16` of two bytes, the first one the low byte (rules R9 and R44). -/
def le16 (b0 b1 : Byte) : Nat := b0.toNat ||| b1.toNat <<< 8

/-- `LE32` of four bytes, the first one the least significant (rules R9 and R44). -/
def le32 (b0 b1 b2 b3 : Byte) : Nat :=
  b0.toNat ||| b1.toNat <<< 8 ||| b2.toNat <<< 16 ||| b3.toNat <<< 24

/-- `sext_16` on a 16-bit pattern read as a natural (rule R8). -/
def sext16 (u : Nat) : Int := if u < 32768 then (u : Int) else (u : Int) - 65536

/-- The sample of a little-endian byte pair `(lo, hi)` (rules R61 and R69). -/
def sampleOf (lo hi : Byte) : Sample := BitVec.ofNat 16 (le16 lo hi)

/-- The `n` low bytes of `v`, least significant first (rule R67). -/
def leBytes : Nat → Nat → List Byte
  | 0, _ => []
  | n + 1, v => BitVec.ofNat 8 v :: leBytes n (v / 256)

/-- The natural that a list of bytes denotes, least significant first (rule R67). -/
def ofLeBytes : List Byte → Nat
  | [] => 0
  | b :: bs => b.toNat + 256 * ofLeBytes bs

/-- A sample as its two bytes, low byte first (rules R67 and R68). -/
def sampleBytes (x : Sample) : List Byte := leBytes 2 x.toNat

/-- The samples of a byte stream: pairs from the first byte on, a dangling last byte dropped
(rules R61, R125 and R127). -/
def unpack : List Byte → List Sample
  | lo :: hi :: rest => sampleOf lo hi :: unpack rest
  | _ => []

/-- The tag `"data"` (rule R65; the ASCII values are the spec's G1). -/
def tagData : ChunkId := ⟨0x64#8, 0x61#8, 0x74#8, 0x61#8⟩

/-- The tag `"fmt "` (rule R65). -/
def tagFmt : ChunkId := ⟨0x66#8, 0x6D#8, 0x74#8, 0x20#8⟩

/-- The tag `"RIFF"` (rule R65). -/
def tagRiff : ChunkId := ⟨0x52#8, 0x49#8, 0x46#8, 0x46#8⟩

/-- The tag `"WAVE"` (rule R65). -/
def tagWave : ChunkId := ⟨0x57#8, 0x41#8, 0x56#8, 0x45#8⟩

/-- The pseudo-instruction `FINDDATA` (rule R77). -/
def findData : Instr := .chunkFind tagData

end Sys2Proof.Machine
end

