-- ==== Sys2Proof/WellFormed.lean ====
section
/-! DEFINITION. Which abstract commands have a byte form (spec/30_encoding.md rules R69 and R71). -/

namespace Sys2Proof

/-- The reserved command bytes: 0x00 and 0x07 to 0xFF (rule R71). -/
def reservedByte (op : Byte) : Bool := op == 0x00#8 || decide (0x07 ≤ op.toNat)

/-- A command is well formed when its count fits the 4-byte count field (rule R69:
`0 ≤ N ≤ 2^32 − 1`) and, for `ILLEGAL`, its byte is a reserved one (rule R71). Every sample pattern,
id and byte is a legal operand (rule R78). -/
def Instr.wellFormed : Instr → Bool
  | .ulawEnc _ => true
  | .ulawEncSeq xs => decide (xs.length < 2 ^ 32)
  | .chunkFind _ => true
  | .dataExtract => true
  | .pcmUnpack bs => decide (bs.length < 2 ^ 32)
  | .wavToUlaw => true
  | .illegal op => reservedByte op

end Sys2Proof
end

