-- ==== Sys2Proof/Decode.lean ====
section
/-! DEFINITION. The byte forms of the commands: the opcode map, the decoder, total on any byte list,
and the encoder (spec/30_encoding.md rules R67 to R73). -/

namespace Sys2Proof

open Machine

/-- The five command formats (rule R68). -/
inductive Format where
  | c0 | cs | ci | cls | clb
  deriving DecidableEq, Repr

/-- What a command byte selects (rules R70 and R71). -/
inductive Opcode where
  | ulawEnc | ulawEncSeq | chunkFind | dataExtract | pcmUnpack | wavToUlaw | illegal
  deriving DecidableEq, Repr

/-- The opcode map: the command byte selects the command exactly (rule R70), and every other byte is
reserved (rule R71). -/
def opcodeOf (op : Byte) : Opcode :=
  if op = 0x01#8 then .ulawEnc
  else if op = 0x02#8 then .ulawEncSeq
  else if op = 0x03#8 then .chunkFind
  else if op = 0x04#8 then .dataExtract
  else if op = 0x05#8 then .pcmUnpack
  else if op = 0x06#8 then .wavToUlaw
  else .illegal

/-- The format of each command (rules R70 and R71). -/
def formatOf : Opcode → Format
  | .ulawEnc => .cs
  | .ulawEncSeq => .cls
  | .chunkFind => .ci
  | .dataExtract => .c0
  | .pcmUnpack => .clb
  | .wavToUlaw => .c0
  | .illegal => .c0

/-- The result of decoding a finite byte list (rule R72). -/
inductive Decoded where
  /-- A whole command is present: the command and the bytes after it. -/
  | whole (i : Instr) (rest : List Byte)
  /-- The list is a proper prefix of a command: the decoder waits for the rest. -/
  | incomplete
  /-- The list is empty (rule R72's `none`). -/
  | empty
  deriving DecidableEq, Repr

/-- The operand of `CS`: one sample (rule R69). -/
def takeSample : List Byte → Option (Sample × List Byte)
  | lo :: hi :: rest => some (sampleOf lo hi, rest)
  | _ => none

/-- The operand of `CI`: four id bytes (rule R69). -/
def takeId : List Byte → Option (ChunkId × List Byte)
  | b0 :: b1 :: b2 :: b3 :: rest => some (⟨b0, b1, b2, b3⟩, rest)
  | _ => none

/-- The count `N` of `CLS` and `CLB`, a 32-bit little-endian field (rule R69). -/
def takeCount : List Byte → Option (Nat × List Byte)
  | b0 :: b1 :: b2 :: b3 :: rest => some (le32 b0 b1 b2 b3, rest)
  | _ => none

/-- `n` samples of two bytes each (rule R69, `CLS`). -/
def takeSamples : Nat → List Byte → Option (List Sample × List Byte)
  | 0, bs => some ([], bs)
  | n + 1, lo :: hi :: rest =>
    (takeSamples n rest).map fun p => (sampleOf lo hi :: p.1, p.2)
  | _ + 1, _ => none

/-- `n` bytes (rule R69, `CLB`). -/
def takeBytes : Nat → List Byte → Option (List Byte × List Byte)
  | 0, bs => some ([], bs)
  | n + 1, b :: rest => (takeBytes n rest).map fun p => (b :: p.1, p.2)
  | _ + 1, [] => none

/-- The operands of a command, after its command byte `op` (rules R69 to R71); `none` while bytes are
missing. -/
def takeOperands (op : Byte) (bs : List Byte) : Option (Instr × List Byte) :=
  match opcodeOf op with
  | .ulawEnc => (takeSample bs).map fun p => (.ulawEnc p.1, p.2)
  | .ulawEncSeq =>
    (takeCount bs).bind fun c => (takeSamples c.1 c.2).map fun p => (.ulawEncSeq p.1, p.2)
  | .chunkFind => (takeId bs).map fun p => (.chunkFind p.1, p.2)
  | .dataExtract => some (.dataExtract, bs)
  | .pcmUnpack =>
    (takeCount bs).bind fun c => (takeBytes c.1 c.2).map fun p => (.pcmUnpack p.1, p.2)
  | .wavToUlaw => some (.wavToUlaw, bs)
  | .illegal => some (.illegal op, bs)

/-- The decoder of the command stream: total, with the three results of rules R72 and R73. -/
def decode : List Byte → Decoded
  | [] => .empty
  | op :: bs =>
    match takeOperands op bs with
    | some (i, rest) => .whole i rest
    | none => .incomplete

/-- A command's length in bytes, found from its command byte alone for `C0`, `CS` and `CI`, and from
the command byte and the 4-byte count for `CLS` and `CLB` (rules R68 and R73). `none` while the bytes
that tell the length have not all arrived. -/
def commandLength : List Byte → Option Nat
  | [] => none
  | op :: bs =>
    match formatOf (opcodeOf op) with
    | .c0 => some 1
    | .cs => some 3
    | .ci => some 5
    | .cls => (takeCount bs).map fun c => 5 + 2 * c.1
    | .clb => (takeCount bs).map fun c => 5 + c.1

/-- The byte form of a command (rules R68 to R71). -/
def encode : Instr → List Byte
  | .ulawEnc x => 0x01#8 :: sampleBytes x
  | .ulawEncSeq xs => 0x02#8 :: (leBytes 4 xs.length ++ xs.flatMap sampleBytes)
  | .chunkFind id => 0x03#8 :: id.toList
  | .dataExtract => [0x04#8]
  | .pcmUnpack bs => 0x05#8 :: (leBytes 4 bs.length ++ bs)
  | .wavToUlaw => [0x06#8]
  | .illegal op => [op]

/-- A row of the opcode table: mnemonic, format, match and mask (spec/opcode_table.json). -/
structure OpRow where
  mnemonic : String
  format : Format
  pattern : Byte
  mask : Byte
  deriving DecidableEq, Repr

/-- Whether a command byte falls under a row. -/
def OpRow.matchesByte (r : OpRow) (op : Byte) : Bool := (op &&& r.mask) == r.pattern

/-- The thirteen rows of spec/opcode_table.json: the six commands of rule R70, and the seven rows that
together cover the reserved bytes of rule R71. -/
def opcodeTable : List OpRow :=
  [⟨"ULAW_ENC", .cs, 0x01#8, 0xFF#8⟩, ⟨"ULAW_ENC_SEQ", .cls, 0x02#8, 0xFF#8⟩,
    ⟨"CHUNK_FIND", .ci, 0x03#8, 0xFF#8⟩, ⟨"DATA_EXTRACT", .c0, 0x04#8, 0xFF#8⟩,
    ⟨"PCM_UNPACK", .clb, 0x05#8, 0xFF#8⟩, ⟨"WAV_TO_ULAW", .c0, 0x06#8, 0xFF#8⟩] ++
  [⟨"ILLEGAL", .c0, 0x00#8, 0xFF#8⟩, ⟨"ILLEGAL", .c0, 0x07#8, 0xFF#8⟩,
    ⟨"ILLEGAL", .c0, 0x08#8, 0xF8#8⟩, ⟨"ILLEGAL", .c0, 0x10#8, 0xF0#8⟩,
    ⟨"ILLEGAL", .c0, 0x20#8, 0xE0#8⟩, ⟨"ILLEGAL", .c0, 0x40#8, 0xC0#8⟩,
    ⟨"ILLEGAL", .c0, 0x80#8, 0x80#8⟩]

/-- The mnemonic a command byte selects. -/
def mnemonicOf : Opcode → String
  | .ulawEnc => "ULAW_ENC"
  | .ulawEncSeq => "ULAW_ENC_SEQ"
  | .chunkFind => "CHUNK_FIND"
  | .dataExtract => "DATA_EXTRACT"
  | .pcmUnpack => "PCM_UNPACK"
  | .wavToUlaw => "WAV_TO_ULAW"
  | .illegal => "ILLEGAL"

/-- `bs` filled up with zero bytes to length `n`. -/
def zeroFill (n : Nat) (bs : List Byte) : List Byte := bs ++ List.replicate (n - bs.length) 0x00#8

/-- The byte form of a table word: its first byte is bits 7..0 of `w`, its second byte bits 15..8,
and so on; the operand bytes above `nbits` are zeros, as many as the command's length asks for. -/
def tableWordBytes (nbits w : Nat) : List Byte :=
  let bs := leBytes (nbits / 8) (w % 2 ^ nbits)
  match commandLength (zeroFill 5 bs) with
  | some n => zeroFill n bs
  | none => bs

/-- The instruction the decoder reads from a word numbered as spec/opcode_table.json numbers it. -/
def decodeTableWord (nbits w : Nat) : Option Instr :=
  match decode (tableWordBytes nbits w) with
  | .whole i _ => some i
  | .incomplete => none
  | .empty => none

end Sys2Proof
end

