-- ==== Sys2Proof/Machine/State.lean ====
section
/-! DEFINITION. The state of the block and of the Host's side of its interface, as plain data
(spec/10_state.md rules R20 to R30), the reasons a step stops, and the state after reset. -/

namespace Sys2Proof.Machine

/-- The status of a response (spec/60_exceptions.md rule R200). It is the block's only status: there
are no flags and no condition codes (rule R24). -/
inductive Status where
  /-- `OK`: the command completed and its result follows. -/
  | ok
  /-- `CHUNK_NOT_FOUND`: the `"data"` tag was not located in the scanned region. -/
  | chunkNotFound
  /-- `TRUNCATED_PAYLOAD`: the size field or the payload runs past the buffer's end. -/
  | truncatedPayload
  /-- `ILLEGAL_COMMAND`: the command byte is reserved. -/
  | illegalCommand
  deriving DecidableEq, Repr

/-- The result of a command that responds `OK` (rule R74). -/
inductive Result where
  /-- `ULAW_ENC`: one output byte. -/
  | code (b : Byte)
  /-- `ULAW_ENC_SEQ` and `WAV_TO_ULAW`: the output bytes, in order. -/
  | codes (bs : List Byte)
  /-- `CHUNK_FIND`: the offset; `none` is NotFound (rules R10 and R66). -/
  | offset (o : Option Nat)
  /-- `DATA_EXTRACT`: address of the first payload byte, and payload size in bytes. -/
  | extent (start size : Nat)
  /-- `PCM_UNPACK`: the samples, in order. -/
  | samples (xs : List Sample)
  deriving DecidableEq, Repr

/-- A response: its status, and its result, `none` exactly when the status is not `OK`
(rules R74 and R75). -/
structure Response where
  status : Status
  result : Option Result
  deriving DecidableEq, Repr

/-- The buffer space (spec/20_memory.md rule R40): every address `0 .. L − 1` with its byte, in rising
order of address. An address that is not listed has no value: it does not exist, and reading it
faults (rule R41; DEDUCED, assumption log 5). -/
abbrev Memory := List Host.Cell

/-- The canonical form of a buffer: its addresses are exactly `0, 1, …, L − 1` in this order, so equal
buffers are equal lists (rule R40). -/
abbrev Memory.wf (m : Memory) : Prop := m.map Prod.fst = List.range m.length

/-- One move of an agent (rule R20). All but `perform` are the Host's. -/
inductive Move where
  /-- The Host's `reset`, enabled in every state (rule R230). -/
  | reset
  /-- The Host's `attach(bytes)` (rule R27). -/
  | attach (bytes : List Byte)
  /-- The Host puts bytes on the command stream (rule R67). DESIGN CHOICE (assumption log 23): rules R20,
  R67 and R72 do not say when it may; the model enables it in every state, also while a command is
  pending. -/
  | send (bytes : List Byte)
  /-- The Host's `issue` of the next whole command of its stream (rules R26 and R72). -/
  | issue
  /-- The Host's `take` (rule R26). -/
  | take
  /-- The Block's `perform` of the pending command (rule R26). -/
  | perform
  deriving DecidableEq, Repr

/-- Why the machine stops with a fault. -/
inductive Fault where
  /-- Raised by a buffer read at an address that does not exist, `a ≥ L` (rule R41, 93 I12). No
  command reaches it on a canonical buffer. SAFE: the machine stops and invents no byte. -/
  | outOfBoundsRead (a : Nat)
  deriving DecidableEq, Repr

/-- Why a step is refused. Every one is a move that the spec says is not enabled, so none of them ends
an instruction that could run (assumption log 4). All are SAFE: the model has no behaviour there. -/
inductive Refusal where
  /-- Raised by an arm of `exec` whose instruction has no meaning yet. SAFE. -/
  | notModelled (mnemonic : String)
  /-- Raised by `issue` (and by the perform of an unreachable state) of a command that reads the buffer
  while no buffer is attached (rules R27 and R232, 93 I13). SAFE. -/
  | noBufferAttached
  /-- Raised by `issue` and `attach` while a command is pending (rules R26 and R27). SAFE. -/
  | commandPending
  /-- Raised by `attach` of more than `MAX_LEN` bytes (rule R27). SAFE. -/
  | bufferTooLong
  /-- Raised by `issue` when the stream holds only part of a command (rule R72, 93 I16). SAFE. -/
  | incompleteCommand
  /-- Raised by `issue` when the stream is empty (rule R72). SAFE. -/
  | emptyStream
  /-- Raised by `take` when there is no response (rule R26). SAFE. -/
  | noResponse
  /-- Raised by `perform` when no command is pending (rule R26). SAFE. -/
  | nothingPending
  /-- Raised when the Host makes no further move and no command is pending: neither agent acts (rules R20
  and R26; assumption log 3). SAFE. -/
  | noMove
  deriving DecidableEq, Repr

/-- The state. `pending`, `resp` and `buf` are the block's (rules R26, R27 and R30); `stream`, `moves`
and `taken` are the Host's side of the interface (rules R67, R20 and R241), held as plain data so that
one deterministic step runs both agents (DESIGN CHOICE, assumption log 1). -/
structure State where
  /-- The command that has been issued and not yet performed (rule R26). -/
  pending : Option Instr
  /-- The response of the last command performed, not yet taken (rule R26). -/
  resp : Option Response
  /-- The attached buffer (rule R27). -/
  buf : Option Memory
  /-- The command bytes the Host has sent and no `issue` has consumed (rules R67 and R72). -/
  stream : List Byte
  /-- The moves to come, the next one first: the Host's actions, and when the Block performs. -/
  moves : List Move
  /-- The responses the Host has taken, oldest first (rule R241). -/
  taken : List Response
  deriving DecidableEq, Repr

/-- The state right after reset (rules R30 and R230): nothing pending, no response, no buffer. The
Host's side is empty as well (DESIGN CHOICE, assumption log 2). -/
def State.reset : State :=
  { pending := none, resp := none, buf := none, stream := [], moves := [], taken := [] }

end Sys2Proof.Machine
end

