-- ==== Sys2Proof/Machine/Ops.lean ====
section
/-! DEFINITION. The operations over the buffer and over the interface state that every command and
every move shares: reading the buffer (spec/20_memory.md rules R40 to R48), answering a command and
raising an error status (spec/30_encoding.md rule R75, spec/60_exceptions.md rules R206 and R207), and
the Host's moves (spec/10_state.md rules R26 and R27, spec/70_reset_and_hazards.md rules R230 to
R235). The block has no trap entry and no return from one (rules R207 and R208): an error is a status
in the response. -/

namespace Sys2Proof.Machine

/-- The buffer that holds the given bytes at addresses `0, 1, …` (rules R27 and R40). -/
def memoryFrom : Nat → List Byte → Memory
  | _, [] => []
  | a, b :: bs => (a, b) :: memoryFrom (a + 1) bs

/-- The buffer space of an attached byte list (rules R27 and R40). -/
def memoryOf (bytes : List Byte) : Memory := memoryFrom 0 bytes

/-- `MemRead(a, 1)`: the byte at address `a`, and the fault `OutOfBoundsRead` where no such address
exists (rule R41). Reads change nothing (rule R42). -/
def memRead (m : Memory) (a : Nat) : Except Fault Byte :=
  match m.lookup a with
  | some b => .ok b
  | none => .error (.outOfBoundsRead a)

/-- `LE32(a)`: four 1-byte reads (rules R9 and R48). -/
def memLe32 (m : Memory) (a : Nat) : Except Fault Nat := do
  let b0 ← memRead m a
  let b1 ← memRead m (a + 1)
  let b2 ← memRead m (a + 2)
  let b3 ← memRead m (a + 3)
  .ok (le32 b0 b1 b2 b3)

/-- The `n` bytes from address `a` on, read one by one (rules R48 and R170). -/
def memRange (m : Memory) : Nat → Nat → Except Fault (List Byte)
  | _, 0 => .ok []
  | a, n + 1 => do
    let b ← memRead m a
    let bs ← memRange m (a + 1) n
    .ok (b :: bs)

/-- The state after the Block has answered the pending command (rules R26 and R75). -/
def State.answer (s : State) (r : Response) : State := { s with pending := none, resp := some r }

/-- `respond(status, result)`: it delivers the response and ends the `perform` (rules R9 and R75). -/
def respond (st : Status) (v : Option Result) (s : State) : Host.Outcome State Fault Refusal :=
  .next (s.answer ⟨st, v⟩)

/-- `raise <Status>`: the response is the status alone, with no partial result; nothing else in the
state changes, no state is saved and control goes nowhere (rules R9, R206 and R207). -/
def raise (st : Status) (s : State) : Host.Outcome State Fault Refusal := respond st none s

/-- The `perform` of a command that reads the buffer: with a buffer attached it delivers the response
that `k` computes from it, or faults where a read did; with no buffer attached such a command cannot
have been issued, and the model refuses (rules R27, R41 and R232; DEDUCED, assumption log 11). -/
def onBuffer (k : Memory → Except Fault Response) (s : State) : Host.Outcome State Fault Refusal :=
  match s.buf with
  | none => .refused .noBufferAttached
  | some m =>
    match k m with
    | .ok r => .next (s.answer r)
    | .error f => .fault f

/-- The Host's `reset`: every state element of the block to its reset value (rules R30, R230 and
R231). The Host's own stream, moves and record are not the block's (DESIGN CHOICE, assumption
log 2). -/
def State.afterReset (s : State) : State := { s with pending := none, resp := none, buf := none }

/-- The state after the Host's `attach` (rule R27). -/
def State.attached (s : State) (bytes : List Byte) : State := { s with buf := some (memoryOf bytes) }

/-- The state after the Host's `issue` of `i`, with `rest` left on the stream: a response not taken is
discarded (rules R26 and R235). -/
def State.issued (s : State) (i : Instr) (rest : List Byte) : State :=
  { s with pending := some i, resp := none, stream := rest }

/-- The state after the Host's `take` of response `r` (rules R26 and R241). -/
def State.afterTake (s : State) (r : Response) : State :=
  { s with resp := none, taken := s.taken ++ [r] }

/-- The state with more bytes on the command stream (rule R67). -/
def State.sent (s : State) (bytes : List Byte) : State := { s with stream := s.stream ++ bytes }

/-- The state with another list of moves to come. -/
def State.withMoves (s : State) (ms : List Move) : State := { s with moves := ms }

/-- The Host's `attach`, enabled only when no command is pending and the bytes are at most the
configuration's `MAX_LEN` (rules R27 and R234). -/
def doAttach (c : Config) (bytes : List Byte) (s : State) : Host.Outcome State Fault Refusal :=
  if s.pending ≠ none then .refused .commandPending
  else if c.maxLen < bytes.length then .refused .bufferTooLong
  else .next (s.attached bytes)

/-- The Host's `issue` of the next command on its stream. It is enabled only when no command is pending
(rule R26), when a whole command has arrived (rule R72), and, for a command that reads the buffer, when
one is attached (rules R27 and R232). -/
def doIssue (s : State) : Host.Outcome State Fault Refusal :=
  if s.pending ≠ none then .refused .commandPending
  else
    match decode s.stream with
    | .empty => .refused .emptyStream
    | .incomplete => .refused .incompleteCommand
    | .whole i rest =>
      if i.readsBuffer = true ∧ s.buf = none then .refused .noBufferAttached
      else .next (s.issued i rest)

/-- The Host's `take`, enabled only when there is a response (rule R26). -/
def doTake (s : State) : Host.Outcome State Fault Refusal :=
  match s.resp with
  | none => .refused .noResponse
  | some r => .next (s.afterTake r)

/-- The buffer a command needs at its issue: where it reads the buffer and none is attached, the empty
one, the shortest that `attach` accepts (rules R27 and R40; DESIGN CHOICE,
assumption log 10). -/
def bufferForIssue (i : Instr) (b : Option Memory) : Option Memory :=
  match b with
  | some m => some m
  | none => if i.readsBuffer then some (memoryOf []) else none

/-- `s` with `i` issued, so that the very next step performs it (DESIGN CHOICE, assumption log 10). -/
def State.loaded (s : State) (i : Instr) : State :=
  { s with
    pending := some i
    resp := none
    buf := bufferForIssue i s.buf
    moves := .perform :: s.moves }

end Sys2Proof.Machine
end

