-- ==== Sys2Proof/Machine/ChunkLocator.lean ====
section
/-! DEFINITION. The ChunkLocator and the command `CHUNK_FIND` (spec/40_chunk_locator.md rules R100 to
R111). -/

namespace Sys2Proof.Machine

/-- The scan's loop condition at candidate `i` in a buffer of length `len` (rules R100 and R102). -/
def scanGuard (lastWindow : Bool) (len i : Nat) : Bool :=
  decide (i + 4 < len) || (lastWindow && decide (i + 4 = len))

/-- Whether the window at `i` holds the four bytes of `id`, in order (rule R103). All four bytes are
read; that cannot be observed (rules R42 and R103). -/
def windowMatches (m : Memory) (id : ChunkId) (i : Nat) : Except Fault Bool := do
  let b0 ← memRead m i
  let b1 ← memRead m (i + 1)
  let b2 ← memRead m (i + 2)
  let b3 ← memRead m (i + 3)
  .ok (b0 == id.b0 && b1 == id.b1 && b2 == id.b2 && b3 == id.b3)

/-- The scan loop from candidate `i` on, one byte forward at a time (rules R100 and R105). The first
argument bounds the number of candidates; with the buffer's length it never runs out (rule R109). -/
def scanFrom (lastWindow : Bool) (m : Memory) (id : ChunkId) : Nat → Nat → Except Fault (Option Nat)
  | 0, _ => .ok none
  | fuel + 1, i =>
    if scanGuard lastWindow m.length i then
      match windowMatches m id i with
      | .error f => .error f
      | .ok true => .ok (some i)
      | .ok false => scanFrom lastWindow m id fuel (i + 1)
    else .ok none

/-- The offset `CHUNK_FIND id` returns; `none` is NotFound (rule R100). -/
def findChunk (lastWindow : Bool) (m : Memory) (id : ChunkId) : Except Fault (Option Nat) :=
  scanFrom lastWindow m id m.length scanStart

/-- The response of `CHUNK_FIND id`: NotFound is a normal result (rules R100 and R201). -/
def chunkFindResponse (lastWindow : Bool) (id : ChunkId) (m : Memory) : Except Fault Response := do
  let o ← findChunk lastWindow m id
  .ok ⟨.ok, some (.offset o)⟩

/-- `CHUNK_FIND id` in a block of configuration `c` (rules R25 and R100). -/
def chunkFindWith (c : Config) (id : ChunkId) (s : State) : Host.Outcome State Fault Refusal :=
  onBuffer (chunkFindResponse c.scanLastWindow id) s

/-- `CHUNK_FIND id` on this hardware (rule R100). -/
def execChunkFind (id : ChunkId) (s : State) : Host.Outcome State Fault Refusal :=
  chunkFindWith hw id s

end Sys2Proof.Machine
end

