-- ==== Sys2Proof/Machine/DataExtract.lean ====
section
/-! DEFINITION. The DataChunkExtractor and the PCM assembly: `DATA_EXTRACT` and `PCM_UNPACK`
(spec/41_data_extract.md rules R120 to R128). -/

namespace Sys2Proof.Machine

/-- What the extractor decides about a buffer: an error status, or the payload's place. -/
inductive Extraction where
  /-- An error status and nothing else (rules R202 and R203). -/
  | failed (st : Status)
  /-- The payload is `buf[start, start + size)`. -/
  | payload (start size : Nat)
  deriving DecidableEq, Repr

/-- The checks of `DATA_EXTRACT`, in the order of rule R205: NotFound; the size field does not fit;
the payload does not fit. The sums are on naturals and never wrap (rules R120, R123 and R237). -/
def extractData (lastWindow : Bool) (m : Memory) : Except Fault Extraction :=
  match findChunk lastWindow m tagData with
  | .error f => .error f
  | .ok none => .ok (.failed .chunkNotFound)
  | .ok (some o) =>
    if m.length < o + 8 then .ok (.failed .truncatedPayload)
    else
      match memLe32 m (o + 4) with
      | .error f => .error f
      | .ok size =>
        if m.length < o + 8 + size then .ok (.failed .truncatedPayload)
        else .ok (.payload (o + 8) size)

/-- The response of `DATA_EXTRACT` (rule R120). -/
def dataExtractResponse (lastWindow : Bool) (m : Memory) : Except Fault Response :=
  match extractData lastWindow m with
  | .error f => .error f
  | .ok (.failed st) => .ok ⟨st, none⟩
  | .ok (.payload start size) => .ok ⟨.ok, some (.extent start size)⟩

/-- `DATA_EXTRACT` in a block of configuration `c`: the scan has the same configuration (rules R25 and
R120). -/
def dataExtractWith (c : Config) (s : State) : Host.Outcome State Fault Refusal :=
  onBuffer (dataExtractResponse c.scanLastWindow) s

/-- `DATA_EXTRACT` on this hardware (rule R120). -/
def execDataExtract (s : State) : Host.Outcome State Fault Refusal := dataExtractWith hw s

/-- `PCM_UNPACK bs`: the samples of the bytes the command carries, an odd last byte dropped
(rules R125 to R128). -/
def execPcmUnpack (bs : List Byte) (s : State) : Host.Outcome State Fault Refusal :=
  respond .ok (some (.samples (unpack bs))) s

end Sys2Proof.Machine
end

