-- ==== Sys2Proof/Machine/UlawEncoder.lean ====
section
/-! DEFINITION. The UlawEncoder: the per-sample datapath `ENC1`, one definition per step, and the
commands `ULAW_ENC` and `ULAW_ENC_SEQ` (spec/42_ulaw_encoder.md rules R140 to R151). -/

namespace Sys2Proof.Machine

/-- Step 1: 0x80 for a negative sample, else 0 (rule R140). -/
def signBit (x : Sample) : Nat := if x.toInt < 0 then 0x80 else 0

/-- Step 1: the magnitude, `0 .. 32768`, held without loss (rules R141 and R236). -/
def magnitude (x : Sample) : Nat := if x.toInt < 0 then (-x.toInt).toNat else x.toInt.toNat

/-- Steps 2 and 3: the magnitude clipped to `CLIP` and biased by `BIAS` (rules R142 and R143). -/
def biased (mag : Nat) : Nat := min mag clip + bias

/-- Step 4: the segment, by the three tests in the source's order, each on `val` as the earlier ones
left it (rule R144). -/
def segment (m : Nat) : Nat :=
  let v0 := m >>> 7
  let v1 := if v0 &&& 0xF0 ≠ 0 then v0 >>> 4 else v0
  let s1 := if v0 &&& 0xF0 ≠ 0 then 4 else 0
  let v2 := if v1 &&& 0x0C ≠ 0 then v1 >>> 2 else v1
  let s2 := if v1 &&& 0x0C ≠ 0 then s1 + 2 else s1
  if v2 &&& 0x02 ≠ 0 then s2 + 1 else s2

/-- Step 5: the mantissa; segment 0 shifts by `SEG0_SHIFT` (rule R145). -/
def mantissa (seg0Shift seg m : Nat) : Nat :=
  if seg = 0 then (m >>> seg0Shift) &&& 0x0F else (m >>> (seg + 3)) &&& 0x0F

/-- Steps 6 and 7: segment and mantissa combined, and the sign set from the original sample
(rules R146 and R147). -/
def ulawCode (seg0Shift : Nat) (x : Sample) : Nat :=
  let m := biased (magnitude x)
  let seg := segment m
  (seg <<< 4 ||| mantissa seg0Shift seg m) ||| signBit x

/-- `ENC1`: the output byte, the complement of the code (rules R62 and R148). -/
def enc1 (seg0Shift : Nat) (x : Sample) : Byte := ~~~ (BitVec.ofNat 8 (ulawCode seg0Shift x))

/-- The finer view of `ULAW_ENC_SEQ` that rule R151 allows: the samples are encoded in groups of up to
`lanes` at once. No command uses it; that it gives the same bytes is a law (rules R151 and R240).
`fuel` bounds the number of groups. -/
def encodeInLanes (seg0Shift lanes : Nat) : Nat → List Sample → List Byte
  | 0, _ => []
  | fuel + 1, xs =>
    if xs = [] then []
    else (xs.take lanes).map (enc1 seg0Shift) ++ encodeInLanes seg0Shift lanes fuel (xs.drop lanes)

/-- `ULAW_ENC x` in a block of configuration `c` (rules R25 and R150). -/
def ulawEncWith (c : Config) (x : Sample) (s : State) : Host.Outcome State Fault Refusal :=
  respond .ok (some (.code (enc1 c.seg0Shift x))) s

/-- `ULAW_ENC_SEQ xs` in a block of configuration `c`: one output byte per sample, in order (rules R25
and R151). -/
def ulawEncSeqWith (c : Config) (xs : List Sample) (s : State) : Host.Outcome State Fault Refusal :=
  respond .ok (some (.codes (xs.map (enc1 c.seg0Shift)))) s

/-- `ULAW_ENC x` on this hardware (rule R150). -/
def execUlawEnc (x : Sample) (s : State) : Host.Outcome State Fault Refusal := ulawEncWith hw x s

/-- `ULAW_ENC_SEQ xs` on this hardware (rule R151). -/
def execUlawEncSeq (xs : List Sample) (s : State) : Host.Outcome State Fault Refusal :=
  ulawEncSeqWith hw xs s

end Sys2Proof.Machine
end

