-- ==== Sys2Proof/Machine/Pipeline.lean ====
section
/-! DEFINITION. The end-to-end conversion `WAV_TO_ULAW` (spec/43_pipeline.md rules R170 to R173). -/

namespace Sys2Proof.Machine

/-- The response of `WAV_TO_ULAW`: the extractor's error, or the payload's samples encoded in order
(rules R170 to R172). -/
def wavToUlawResponse (lastWindow : Bool) (seg0Shift : Nat) (m : Memory) : Except Fault Response :=
  match extractData lastWindow m with
  | .error f => .error f
  | .ok (.failed st) => .ok ⟨st, none⟩
  | .ok (.payload start size) =>
    match memRange m start size with
    | .error f => .error f
    | .ok p => .ok ⟨.ok, some (.codes ((unpack p).map (enc1 seg0Shift)))⟩

/-- `WAV_TO_ULAW` in a block of configuration `c` (rules R25 and R170). -/
def wavToUlawWith (c : Config) (s : State) : Host.Outcome State Fault Refusal :=
  onBuffer (wavToUlawResponse c.scanLastWindow c.seg0Shift) s

/-- `WAV_TO_ULAW` on this hardware (rule R170). -/
def execWavToUlaw (s : State) : Host.Outcome State Fault Refusal := wavToUlawWith hw s

end Sys2Proof.Machine
end

