-- ==== Sys2Proof/Machine/Reserved.lean ====
section
/-! DEFINITION. The reserved command bytes, `ILLEGAL` (spec/30_encoding.md rule R71,
spec/60_exceptions.md rule R204). -/

namespace Sys2Proof.Machine

/-- `ILLEGAL`: the response is the status `ILLEGAL_COMMAND` alone, whichever byte it carries (assumption log 12); it
reads nothing and changes only `pending` and `resp` (rules R71 and R204). -/
def execIllegal (_op : Byte) (s : State) : Host.Outcome State Fault Refusal :=
  raise .illegalCommand s

end Sys2Proof.Machine
end

