-- ==== Sys2Proof/Machine/Dispatch.lean ====
section
/-! DEFINITION. The Block's `perform` of one command: one arm per constructor of `Instr`
(spec/10_state.md rule R26). -/

namespace Sys2Proof.Machine

def exec (i : Instr) (s : State) : Host.Outcome State Fault Refusal :=
  match i with
  | .ulawEnc x => Sys2Proof.Machine.execUlawEnc x s
  | .ulawEncSeq xs => Sys2Proof.Machine.execUlawEncSeq xs s
  | .chunkFind id => Sys2Proof.Machine.execChunkFind id s
  | .dataExtract => Sys2Proof.Machine.execDataExtract s
  | .pcmUnpack bs => Sys2Proof.Machine.execPcmUnpack bs s
  | .wavToUlaw => Sys2Proof.Machine.execWavToUlaw s
  | .illegal op => Sys2Proof.Machine.execIllegal op s

end Sys2Proof.Machine
end

