-- ==== Sys2Proof/Machine/Moves.lean ====
section
/-! DEFINITION. The moves of the two agents (spec/10_state.md rules R20 and R26): the Block's
`perform`, and the Host's moves of Sys2Proof/Machine/Ops.lean, for a block of any configuration `c`
whose `perform` of a command is given as `perf`. -/

namespace Sys2Proof.Machine

/-- The `perform` of one command as a function of the state. -/
abbrev Performer := Instr → State → Host.Outcome State Fault Refusal

/-- The Block's `perform`, enabled only when a command is pending (rule R26). The command is performed
whole, in one step (rules R28 and R239). -/
def doPerform (perf : Performer) (s : State) : Host.Outcome State Fault Refusal :=
  match s.pending with
  | none => .refused .nothingPending
  | some i => perf i s

/-- One move. A move that is not enabled is refused by name (assumption log 4). DESIGN CHOICE (assumption
log 23): `send` is enabled in every state, also while a command is pending; the spec does not say when
the Host may put bytes on the command stream. -/
def doMove (c : Config) (perf : Performer) (mv : Move) (s : State) :
    Host.Outcome State Fault Refusal :=
  match mv with
  | .reset => .next s.afterReset
  | .attach bytes => doAttach c bytes s
  | .send bytes => .next (s.sent bytes)
  | .issue => doIssue s
  | .take => doTake s
  | .perform => doPerform perf s

/-- What happens when the Host makes no further move: the Block performs a pending command, since a run
with a command still pending is not over (rules R239 and R241); with none pending neither agent acts,
and the machine is at rest (DESIGN CHOICE, assumption log 3). -/
def doNoMove (perf : Performer) (s : State) : Host.Outcome State Fault Refusal :=
  match s.pending with
  | none => .refused .noMove
  | some i => perf i s

/-- One step of the two agents: the first move of the schedule, or what happens when none is left. -/
def stepOf (c : Config) (perf : Performer) (s : State) : Host.Outcome State Fault Refusal :=
  match s.moves with
  | [] => doNoMove perf s
  | mv :: ms => doMove c perf mv (s.withMoves ms)

/-- The bytes a move puts on the command stream (rule R67). -/
def Move.streamBytes : Move → List Byte
  | .send bytes => bytes
  | .reset => []
  | .attach _ => []
  | .issue => []
  | .take => []
  | .perform => []

/-- The Host's command stream from here on: the bytes sent and not yet consumed by an `issue`, and those
it has still to send (rules R67, R72 and R241). A reset among the moves to come takes no byte out of it
(DESIGN CHOICE, assumption log 2). -/
def State.commandStream (s : State) : List Byte := s.stream ++ s.moves.flatMap Move.streamBytes

end Sys2Proof.Machine
end

