-- ==== Sys2Proof/Machine/Step.lean ====
section
/-! DEFINITION. One step of the two agents (spec/10_state.md rules R20 and R26): the next move of the
schedule that `State.moves` holds. -/

namespace Sys2Proof.Machine

/-- One step of the two agents, with the block of this hardware: the first move of the schedule, or what
happens when none is left. -/
def step (s : State) : Host.Outcome State Fault Refusal := stepOf hw exec s

/-- `s` with the instruction of a table word issued, so that the very next step performs it
(DESIGN CHOICE, assumption log 10). Where the decoder reads no instruction, nothing is issued. -/
def State.withFetchWord (s : State) (nbits w : Nat) : State :=
  match decodeTableWord nbits w with
  | some i => s.loaded i
  | none => s

end Sys2Proof.Machine
end

