-- ==== Sys2Proof/Machine/Configured.lean ====
section
/-! DEFINITION. The step of a block of any configuration: the configuration is an argument of the step
relation and no field of its state (spec/10_state.md rule R25, spec/00_scope.md rule R6). `exec` and
`step` are the block of this hardware, `hw`. -/

namespace Sys2Proof.Machine

/-- The Block's `perform` of one command in a block of configuration `c` (rules R25 and R26). -/
def execWith (c : Config) (i : Instr) (s : State) : Host.Outcome State Fault Refusal :=
  match i with
  | .ulawEnc x => ulawEncWith c x s
  | .ulawEncSeq xs => ulawEncSeqWith c xs s
  | .chunkFind id => chunkFindWith c id s
  | .dataExtract => dataExtractWith c s
  | .pcmUnpack bs => execPcmUnpack bs s
  | .wavToUlaw => wavToUlawWith c s
  | .illegal op => execIllegal op s

/-- One step of the two agents, with a block of configuration `c` (rules R20, R25 and R26). -/
def stepWith (c : Config) (s : State) : Host.Outcome State Fault Refusal := stepOf c (execWith c) s

end Sys2Proof.Machine
end

