-- ==== Sys2Proof/Machine/Flags.lean ====
section
/-! DEFINITION. The block has no flags and no condition codes (spec/10_state.md rule R24). Its only
status is the status byte of a response, computed here (spec/60_exceptions.md rule R200). -/

namespace Sys2Proof.Machine

/-- The status byte (rule R200). -/
def statusByte : Status → Byte
  | .ok => 0x00#8
  | .chunkNotFound => 0x01#8
  | .truncatedPayload => 0x02#8
  | .illegalCommand => 0x03#8

/-- The status a status byte denotes; every other value is never produced (rule R200). -/
def statusOfByte (b : Byte) : Option Status :=
  if b = 0x00#8 then some .ok
  else if b = 0x01#8 then some .chunkNotFound
  else if b = 0x02#8 then some .truncatedPayload
  else if b = 0x03#8 then some .illegalCommand
  else none

end Sys2Proof.Machine
end

