-- ==== Sys2Proof/Machine/Response.lean ====
section
/-! DEFINITION. The byte forms of the responses, both ways (spec/30_encoding.md rules R66, R67 and
R74). -/

namespace Sys2Proof.Machine

/-- The 8-byte two's-complement offset field: NotFound is −1 (rule R66). -/
def offsetBytes : Option Nat → List Byte
  | some o => leBytes 8 o
  | none => List.replicate 8 0xFF#8

/-- The result bytes of an `OK` response (rule R74). -/
def resultBytes : Result → List Byte
  | .code b => [b]
  | .codes bs => leBytes 4 bs.length ++ bs
  | .offset o => offsetBytes o
  | .extent start size => leBytes 8 start ++ leBytes 4 size
  | .samples xs => leBytes 4 xs.length ++ xs.flatMap sampleBytes

/-- The byte form of a response: the status byte, then the result bytes, if any (rules R67 and
R74). -/
def responseBytes (r : Response) : List Byte :=
  statusByte r.status :: (r.result.map resultBytes).getD []

/-- The ranges of the response fields: a response carries a result exactly when its status is `OK`
(rule R75), and every number fits its field (rules R66 and R74). -/
def resultFits : Result → Bool
  | .code _ => true
  | .codes bs => decide (bs.length < 2 ^ 32)
  | .offset o => match o with
    | some n => decide (n < 2 ^ 63)
    | none => true
  | .extent start size => decide (start < 2 ^ 63) && decide (size < 2 ^ 32)
  | .samples xs => decide (xs.length < 2 ^ 32)

/-- A response that rule R75 allows and whose numbers fit their fields (rules R66 and R74). -/
def responseFits (r : Response) : Bool :=
  match r.status, r.result with
  | .ok, some v => resultFits v
  | .ok, none => false
  | _, none => true
  | _, some _ => false

/-- A list of exactly the bytes of `n` samples after its count (rule R74). -/
def samplesOfBytes (bs : List Byte) : Option (List Sample) :=
  (takeCount bs).bind fun c =>
    (takeSamples c.1 c.2).bind fun p => if p.2 = [] then some p.1 else none

/-- A list of exactly `n` bytes after its count (rule R74). -/
def codesOfBytes (bs : List Byte) : Option (List Byte) :=
  (takeCount bs).bind fun c =>
    (takeBytes c.1 c.2).bind fun p => if p.2 = [] then some p.1 else none

/-- An 8-byte offset field read as two's complement: −1 is NotFound, another negative number is never
produced (rule R66). -/
def offsetOfBytes (bs : List Byte) : Option (Option Nat) :=
  if bs.length = 8 then
    if ofLeBytes bs = 2 ^ 64 - 1 then some none
    else if ofLeBytes bs < 2 ^ 63 then some (some (ofLeBytes bs))
    else none
  else none

/-- The result of an `OK` response to command `i`, read from the bytes after the status byte
(rule R74). -/
def resultOfBytes (i : Instr) (bs : List Byte) : Option Result :=
  match i with
  | .ulawEnc _ => match bs with
    | [b] => some (.code b)
    | _ => none
  | .ulawEncSeq _ => (codesOfBytes bs).map .codes
  | .chunkFind _ => (offsetOfBytes bs).map .offset
  | .dataExtract =>
    if bs.length = 12 then some (.extent (ofLeBytes (bs.take 8)) (ofLeBytes (bs.drop 8))) else none
  | .pcmUnpack _ => (samplesOfBytes bs).map .samples
  | .wavToUlaw => (codesOfBytes bs).map .codes
  | .illegal _ => none

/-- The Host's reading of the response bytes to command `i` (rule R74). -/
def responseOfBytes (i : Instr) (bs : List Byte) : Option Response :=
  match bs with
  | [] => none
  | b :: rest =>
    (statusOfByte b).bind fun st =>
      if st = .ok then (resultOfBytes i rest).map fun v => ⟨.ok, some v⟩
      else if rest = [] then some ⟨st, none⟩
      else none

end Sys2Proof.Machine
end

