-- ==== Sys2Proof/Safety.lean ====
section
/-! DEFINITION. What counts as a sound state and as a finished run, in the terms the statements use
(spec/10_state.md rules R26 and R27, spec/70_reset_and_hazards.md rule R241). -/

namespace Sys2Proof.Machine

/-- A buffer that `attach` can have left in a block of configuration `c`: canonical, and no longer than
`MAX_LEN` (rules R27 and R40). -/
def bufferSound (c : Config) (m : Memory) : Prop := m.wf ∧ m.length ≤ c.maxLen

/-- The invariant of every state that a run from reset can reach in a block of configuration `c`. -/
structure State.InvFor (c : Config) (s : State) : Prop where
  /-- The attached buffer is canonical and no longer than `MAX_LEN` (rules R27 and R40). -/
  buffer : ∀ m, s.buf = some m → bufferSound c m
  /-- A pending command has a byte form (rule R72). -/
  pendingForm : ∀ i, s.pending = some i → i.wellFormed = true
  /-- A pending command that reads the buffer has one (rules R27 and R232). -/
  pendingBuffer : ∀ i, s.pending = some i → i.readsBuffer = true → s.buf ≠ none
  /-- While a command is pending there is no response (rule R26). -/
  oneAtATime : s.pending ≠ none → s.resp = none
  /-- A response has a result exactly when its status is `OK`, and its numbers fit their fields
  (rules R66, R74 and R75). -/
  respForm : ∀ r, s.resp = some r → responseFits r = true
  /-- So has every response the Host has taken. -/
  takenForm : ∀ r ∈ s.taken, responseFits r = true

/-- The invariant of every state that a run of this hardware from reset can reach. -/
abbrev State.Inv (s : State) : Prop := s.InvFor hw

/-- `n` steps, stopping at the first fault or refusal (the host's `Core.run` of this machine). -/
def runSteps : Nat → State → Host.Outcome State Fault Refusal
  | 0, s => .next s
  | n + 1, s =>
    match step s with
    | .next t => runSteps n t
    | .fault f => .fault f
    | .refused r => .refused r

/-- The run is over: nothing is pending, and the Host's command stream, with the bytes it has still to
send, has no further whole command (rule R241). -/
def State.over (s : State) : Prop :=
  s.pending = none ∧ ∀ i rest, decode s.commandStream ≠ .whole i rest

/-- What is observed of a run: the responses taken, in order, plus the one not yet taken, if any
(rule R241). -/
def State.observation (s : State) : List Response := s.taken ++ s.resp.toList

/-- The observation as the byte stream the Block has returned (rule R67). -/
def State.observedBytes (s : State) : List Byte := s.observation.flatMap responseBytes

/-! The terms in which the statements describe a buffer and a response from outside the model: the
buffer as its list of bytes (rule R27), with no reference to how the model scans or reads it. -/

/-- The four bytes of `id` stand at positions `i .. i + 3` of `bytes`, in order (rule R103). -/
def tagAt (bytes : List Byte) (id : ChunkId) (i : Nat) : Prop :=
  bytes[i]? = some id.b0 ∧ bytes[i + 1]? = some id.b1 ∧ bytes[i + 2]? = some id.b2 ∧
    bytes[i + 3]? = some id.b3

/-- `i` is a candidate position in a buffer of length `len` (rules R100 to R102). -/
def candidateAt (lastWindow : Bool) (len i : Nat) : Prop :=
  12 ≤ i ∧ (i + 4 < len ∨ (lastWindow = true ∧ i + 4 = len))

/-- `i` is the least candidate position at which `id` stands (rule R105). -/
def firstTagAt (lastWindow : Bool) (bytes : List Byte) (id : ChunkId) (i : Nat) : Prop :=
  candidateAt lastWindow bytes.length i ∧ tagAt bytes id i ∧
    ∀ j, j < i → candidateAt lastWindow bytes.length j → ¬ tagAt bytes id j

/-- No candidate position holds `id`. -/
def noTag (lastWindow : Bool) (bytes : List Byte) (id : ChunkId) : Prop :=
  ∀ j, candidateAt lastWindow bytes.length j → ¬ tagAt bytes id j

/-- The value of byte `a` of a list, where it has one. -/
def byteVal (bytes : List Byte) (a : Nat) : Nat := (bytes.getD a 0).toNat

/-- The unsigned 32-bit little-endian number at position `a` (rule R122). -/
def sizeAt (bytes : List Byte) (a : Nat) : Nat :=
  byteVal bytes a + 256 * byteVal bytes (a + 1) + 65536 * byteVal bytes (a + 2) +
    16777216 * byteVal bytes (a + 3)

/-- `r` is what the Block responds to `i` with buffer attachment `b`. -/
def respondsTo (b : Option Memory) (i : Instr) (r : Response) : Prop :=
  ∃ s t, s.buf = b ∧ exec i s = .next t ∧ t.resp = some r

end Sys2Proof.Machine
end

