-- ==== Sys2Proof/Certificates/Slice0/Obligations.lean ====
section
/-! DEFINITION. The statements for the provers. Each docstring names the rules of spec/ it formalises.
`enc1 3` is the encoder at this hardware's `SEG0_SHIFT = 3` (rule R145), and `enc1 4` at the other
value that rule R6 allows. -/

open Sys2Proof Sys2Proof.Machine

/-! ## Reset, moves and steps -/

/-- Rules R30 and R230: after reset nothing is pending, there is no response and no buffer. -/
def Obligations.ResetStateIsEmpty : Prop :=
  core.reset.pending = none ∧ core.reset.resp = none ∧ core.reset.buf = none

/-- Rules R230 and R231: the Host's `reset` is enabled in every state, sets every state element of the
block to `none`, and so drops a pending command and a response not taken, neither of which the Host ever
receives. -/
def Obligations.ResetMoveEmptiesTheBlock : Prop :=
  ∀ (s : State) (ms : List Move), s.moves = .reset :: ms →
    ∃ t, step s = .next t ∧ t.pending = none ∧ t.resp = none ∧ t.buf = none ∧ t.taken = s.taken

/-- The model's choice of assumption log 2, no rule of the spec: a reset leaves the Host's own stream,
remaining moves and record of responses as they are. -/
def Obligations.ResetMoveLeavesTheHostSide : Prop :=
  ∀ (s t : State) (ms : List Move), s.moves = .reset :: ms → step s = .next t →
    t.stream = s.stream ∧ t.moves = ms ∧ t.taken = s.taken

/-- Rule R26, `perform`: a step in which the Block performs is `exec` of the pending command. The last
clause is the model's choice (assumption log 3). -/
def Obligations.PerformStepRunsPendingCommand : Prop :=
  ∀ (s : State) (ms : List Move) (i : Instr), s.pending = some i →
    (s.moves = .perform :: ms → step s = exec i { s with moves := ms }) ∧
    (s.moves = [] → step s = exec i s)

/-- Rules R26 and R72: the bytes at the head of the Host's stream that decode to a command are issued
and then performed: two steps from there are `exec` of that command, the stream moved past its bytes
and an old response dropped. -/
def Obligations.StreamHeadIsDecodedAndPerformed : Prop :=
  ∀ (s : State) (ms : List Move) (i : Instr) (rest : List Byte),
    s.moves = .issue :: .perform :: ms → s.pending = none → decode s.stream = .whole i rest →
    (i.readsBuffer = true → s.buf ≠ none) →
    step s = .next { s with pending := some i, resp := none, stream := rest, moves := .perform :: ms } ∧
    runSteps 2 s =
      exec i { s with pending := some i, resp := none, stream := rest, moves := ms }

/-- Rule R232: the issue of a command that reads the buffer is refused while no buffer is attached, the
other commands need none, and the commands that read it are exactly the three named ones. -/
def Obligations.BufferCommandsNeedAnAttachedBuffer : Prop :=
  ∀ (s : State) (ms : List Move) (i : Instr) (rest : List Byte),
    s.moves = .issue :: ms → s.pending = none → decode s.stream = .whole i rest → s.buf = none →
    (((∃ id, i = .chunkFind id) ∨ i = .dataExtract ∨ i = .wavToUlaw) →
      step s = .refused .noBufferAttached) ∧
    (((∃ x, i = .ulawEnc x) ∨ (∃ xs, i = .ulawEncSeq xs) ∨ (∃ bs, i = .pcmUnpack bs) ∨
        ∃ op, i = .illegal op) →
      step s = .next { s with pending := some i, resp := none, stream := rest, moves := ms })

/-- Rules R26, R27 and R72 say that these moves are not enabled: a second issue, or an `attach`, while a
command is pending; an `attach` of too many bytes; an issue with no whole command on the stream; `take`
with no response; `perform` with nothing pending. That such a move is a refusal with a name is the model's
choice (assumption log 4, DEDUCED), no rule of the spec. -/
def Obligations.DisabledMovesAreRefused : Prop :=
  ∀ (s : State) (ms : List Move),
    (∀ bytes, s.moves = .attach bytes :: ms → s.pending ≠ none → step s = .refused .commandPending) ∧
    (∀ bytes, s.moves = .attach bytes :: ms → s.pending = none → hw.maxLen < bytes.length →
      step s = .refused .bufferTooLong) ∧
    (s.moves = .issue :: ms → s.pending ≠ none → step s = .refused .commandPending) ∧
    (s.moves = .issue :: ms → s.pending = none → s.stream = [] → step s = .refused .emptyStream) ∧
    (s.moves = .issue :: ms → s.pending = none → decode s.stream = .incomplete →
      step s = .refused .incompleteCommand) ∧
    (s.moves = .take :: ms → s.resp = none → step s = .refused .noResponse) ∧
    (s.moves = .perform :: ms → s.pending = none → step s = .refused .nothingPending)

/-- Rule R27, `attach`: enabled when nothing is pending and the bytes are at most `MAX_LEN`, whatever
`MAX_LEN` is. It sets the buffer, and every address then reads as the attached byte, and an address at
or above `L` faults (rule R41). -/
def Obligations.AttachSetsTheBuffer : Prop :=
  ∀ (s : State) (ms : List Move) (bytes : List Byte),
    s.moves = .attach bytes :: ms → s.pending = none → bytes.length ≤ hw.maxLen →
    ∃ m, step s = .next { s with buf := some m, moves := ms } ∧ m.wf ∧ m.length = bytes.length ∧
      ∀ a, (∀ b, bytes[a]? = some b → memRead m a = .ok b) ∧
        (bytes.length ≤ a → memRead m a = .error (.outOfBoundsRead a))

/-- Rule R26, `take`: it returns the response and sets `resp` to `none`. What the Host receives is
recorded as the observation of rule R241. -/
def Obligations.TakeReturnsTheResponse : Prop :=
  ∀ (s : State) (ms : List Move) (r : Response),
    s.moves = .take :: ms → s.resp = some r →
    step s = .next { s with resp := none, taken := s.taken ++ [r], moves := ms }

/-- Rules R40 and R27: the canonical buffers are exactly those that `attach` makes from a byte list, and
that byte list is determined by the buffer. -/
def Obligations.CanonicalBuffersAreAttachedByteLists : Prop :=
  (∀ m : Memory, m.wf ↔ ∃ bytes, m = memoryOf bytes) ∧
  (∀ bytes bytes' : List Byte, memoryOf bytes = memoryOf bytes' → bytes = bytes')

/-! ## Encoding -/

/-- Rules R70, R71 and R77: words written out from the spec's encoding, among them `FINDDATA`. -/
def Obligations.WordsOfTheSpecDecode : Prop :=
  decode [0x01#8, 0x00#8, 0x80#8] = .whole (.ulawEnc 0x8000#16) [] ∧
  decode [0x02#8, 0x01#8, 0x00#8, 0x00#8, 0x00#8, 0x10#8, 0x27#8] = .whole (.ulawEncSeq [10000#16]) [] ∧
  decode [0x03#8, 0x64#8, 0x61#8, 0x74#8, 0x61#8] = .whole findData [] ∧
  findData = .chunkFind ⟨0x64#8, 0x61#8, 0x74#8, 0x61#8⟩ ∧
  encode findData = [0x03#8, 0x64#8, 0x61#8, 0x74#8, 0x61#8] ∧
  decode [0x04#8] = .whole .dataExtract [] ∧
  decode [0x05#8, 0x02#8, 0x00#8, 0x00#8, 0x00#8, 0x34#8, 0x12#8] =
    .whole (.pcmUnpack [0x34#8, 0x12#8]) [] ∧
  decode [0x06#8] = .whole .wavToUlaw [] ∧
  decode [0x07#8, 0x01#8, 0x00#8, 0x00#8] = .whole (.illegal 0x07#8) [0x01#8, 0x00#8, 0x00#8]

/-- Rules R70 and R71, and opcode_table.json: every command byte matches exactly one row of the table,
and that row has the mnemonic and the format the decoder uses. -/
def Obligations.EveryByteMatchesOneTableRow : Prop :=
  ∀ op : Byte, ∃ r ∈ opcodeTable, r.matchesByte op = true ∧ r.mnemonic = mnemonicOf (opcodeOf op) ∧
    r.format = formatOf (opcodeOf op) ∧ ∀ r' ∈ opcodeTable, r'.matchesByte op = true → r' = r

/-- Rules R68 to R71: decoding the byte form of any well-formed command gives the command back, with
every operand, and leaves the bytes after it. -/
def Obligations.DecodeOfEncodeIsTheCommand : Prop :=
  ∀ (i : Instr) (rest : List Byte), i.wellFormed = true → decode (encode i ++ rest) = .whole i rest

/-- Rules R68 to R71: a byte list that decodes to a command is that command's byte form followed by the
rest, and the command is well formed: each list of bytes has one meaning. -/
def Obligations.DecodedBytesAreTheEncoding : Prop :=
  ∀ (bs : List Byte) (i : Instr) (rest : List Byte), decode bs = .whole i rest →
    bs = encode i ++ rest ∧ i.wellFormed = true

/-- Rule R72: on a finite byte list the decoder answers a command exactly when a whole command is
present, `incomplete` exactly when the list is a proper, non-empty beginning of a command, and `empty`
exactly on the empty list. A command whose bytes have not all arrived is not issued. -/
def Obligations.DecoderHasThreeResults : Prop :=
  ∀ bs : List Byte,
    ((∃ i rest, decode bs = .whole i rest) ↔ ∃ i rest, i.wellFormed = true ∧ bs = encode i ++ rest) ∧
    (decode bs = .incomplete ↔
      bs ≠ [] ∧ ∃ i more, i.wellFormed = true ∧ more ≠ [] ∧ bs ++ more = encode i) ∧
    (decode bs = .empty ↔ bs = []) ∧
    (decode bs = .incomplete → ∀ (s : State) (ms : List Move), s.stream = bs → s.moves = .issue :: ms →
      ∃ r, step s = .refused r)

/-- Rules R68 and R73: a command's length follows from its first byte alone for `C0`, `CS` and `CI`, and
from the first five bytes, and no fewer, for `CLS` and `CLB`; it is the number of bytes the decoder
consumes. -/
def Obligations.LengthFollowsFromTheHeader : Prop :=
  (∀ (bs : List Byte) (i : Instr) (rest : List Byte), decode bs = .whole i rest →
    ∃ n, commandLength bs = some n ∧ n + rest.length = bs.length ∧
      commandLength (bs.take 5) = some n ∧
      ((formatOf (opcodeOf (bs.getD 0 0)) = .c0 ∨ formatOf (opcodeOf (bs.getD 0 0)) = .cs ∨
        formatOf (opcodeOf (bs.getD 0 0)) = .ci) → commandLength (bs.take 1) = some n) ∧
      ((formatOf (opcodeOf (bs.getD 0 0)) = .cls ∨ formatOf (opcodeOf (bs.getD 0 0)) = .clb) →
        ∀ k, k ≤ 4 → commandLength (bs.take k) = none)) ∧
  (∀ x, (encode (.ulawEnc x)).length = 3) ∧
  (∀ xs, (encode (.ulawEncSeq xs)).length = 5 + 2 * xs.length) ∧
  (∀ id, (encode (.chunkFind id)).length = 5) ∧
  (encode .dataExtract).length = 1 ∧
  (∀ bs, (encode (.pcmUnpack bs)).length = 5 + bs.length) ∧
  (encode .wavToUlaw).length = 1 ∧
  (∀ op, (encode (.illegal op)).length = 1)

/-- Rules R71 and R204: command bytes 0x00 and 0x07 to 0xFF are a complete 1-byte command, whose response
is the status `ILLEGAL_COMMAND` alone; it changes only `pending` and `resp`, and the next byte of the
stream starts a new command. -/
def Obligations.ReservedBytesAreIllegalCommands : Prop :=
  ∀ (op : Byte) (rest : List Byte) (s : State), (op = 0x00#8 ∨ 0x07 ≤ op.toNat) →
    decode (op :: rest) = .whole (.illegal op) rest ∧
    exec (.illegal op) s =
      .next { s with pending := none, resp := some ⟨.illegalCommand, none⟩ } ∧
    responseBytes ⟨.illegalCommand, none⟩ = [0x03#8]

/-! ## The encoder -/

/-- Rule R150, with rule R145's `SEG0_SHIFT = 3`: `ULAW_ENC` completes in every state, with the output
byte of its sample, and changes nothing but `pending` and `resp`; its encoding, corner cases and worked
example. -/
def Obligations.UlawEncRespondsWithItsByte : Prop :=
  ∀ (x : Sample) (s : State),
    exec (.ulawEnc x) s = .next { s with pending := none, resp := some ⟨.ok, some (.code (enc1 3 x))⟩ } ∧
    (∃ lo hi : Byte, encode (.ulawEnc x) = [0x01#8, lo, hi] ∧ x.toNat = lo.toNat + 256 * hi.toNat) ∧
    [0, -1, -32768, 32767, 123, 124, 31612, 32635].map (fun v => enc1 3 (BitVec.ofInt 16 v)) =
      [0xFF#8, 0x7F#8, 0x00#8, 0x80#8, 0xF0#8, 0xEF#8, 0x80#8, 0x80#8] ∧
    decode [0x01#8, 0x00#8, 0x00#8] = .whole (.ulawEnc 0#16) [] ∧
    responseBytes ⟨.ok, some (.code (enc1 3 0#16))⟩ = [0x00#8, 0xFF#8]

/-- Rule R151: `ULAW_ENC_SEQ` completes in every state, with one output byte per sample, in order,
byte `k` that of sample `k` alone. -/
def Obligations.UlawEncSeqRespondsWithOneBytePerSample : Prop :=
  ∀ (xs : List Sample) (s : State), ∃ bs : List Byte,
    exec (.ulawEncSeq xs) s = .next { s with pending := none, resp := some ⟨.ok, some (.codes bs)⟩ } ∧
    bs.length = xs.length ∧ ∀ (k : Nat) (x : Sample), xs[k]? = some x → bs[k]? = some (enc1 3 x)

/-- Rules R141 and R236: the magnitude is the exact absolute value, at most 32768, and 32768 for the most
negative sample, which still encodes to 0x00. -/
def Obligations.MagnitudeIsHeldWithoutLoss : Prop :=
  (∀ x : Sample, magnitude x = x.toInt.natAbs ∧ magnitude x ≤ 32768) ∧
  magnitude 0x8000#16 = 32768 ∧ enc1 3 0x8000#16 = 0x00#8

/-- The known vectors of the source (spec/95_test_vectors.md §1.1), and the first of them at the literal
reading of step 5 (90_conflicts.md C1). -/
def Obligations.KnownVectors : Prop :=
  enc1 3 (BitVec.ofInt 16 0) = 0xFF#8 ∧ enc1 3 (BitVec.ofInt 16 32635) = 0x80#8 ∧
  enc1 3 (BitVec.ofInt 16 (-32635)) = 0x00#8 ∧ enc1 3 (BitVec.ofInt 16 (-1)) = 0x7F#8 ∧
  enc1 4 (BitVec.ofInt 16 0) = 0xF7#8

/-- Rules R140 to R143, R145 to R148 and R152: the whole datapath in exact integer arithmetic, with the
segment in its closed form, for both values of `SEG0_SHIFT`. -/
def Obligations.EncoderMatchesItsClosedForm : Prop :=
  ∀ (shift : Nat) (x : Sample), (shift = 3 ∨ shift = 4) →
    let m := min x.toInt.natAbs 32635 + 132
    let seg := Nat.log2 (m / 128)
    let man := if seg = 0 then m / 2 ^ shift % 16 else m / 2 ^ (seg + 3) % 16
    let sign := if x.toInt < 0 then 128 else 0
    (enc1 shift x).toNat = 255 - (sign + 16 * seg + man)

/-- Rule R152: the three tests of rule R144 find the position of the highest set bit of `m >> 7`. -/
def Obligations.SegmentIsTheHighestBitPosition : Prop :=
  ∀ m : Nat, 132 ≤ m → m ≤ 32767 →
    1 ≤ m >>> 7 ∧ segment m = Nat.log2 (m >>> 7) ∧ segment m ≤ 7

/-- Rule R154: the interval of biased magnitudes of each mantissa of each segment, at `SEG0_SHIFT = 3`,
and in segment 0 at `SEG0_SHIFT = 4`. -/
def Obligations.MantissaIntervals : Prop :=
  ∀ m seg k : Nat, 132 ≤ m → m ≤ 32767 → seg ≤ 7 → k ≤ 15 →
    (segment m = seg → mantissa 3 seg m = (m >>> (seg + 3)) - 16) ∧
    ((segment m = seg ∧ mantissa 3 seg m = k) ↔
      (2 ^ (seg + 7) + k * 2 ^ (seg + 3) ≤ m ∧ m ≤ 2 ^ (seg + 7) + (k + 1) * 2 ^ (seg + 3) - 1)) ∧
    (segment m = 0 → mantissa 4 0 m = m >>> 4 ∧ 8 ≤ mantissa 4 0 m ∧ mantissa 4 0 m ≤ 15) ∧
    ((segment m = 0 ∧ mantissa 4 0 m = k) ↔ (16 * k ≤ m ∧ m ≤ 16 * k + 15))

/-- Rule R63: where the fields land in the output byte. -/
def Obligations.OutputByteFields : Prop :=
  ∀ (shift : Nat) (x : Sample), (shift = 3 ∨ shift = 4) →
    let m := biased (magnitude x)
    (enc1 shift x).toNat / 128 = 1 - (if x.toInt < 0 then 1 else 0) ∧
    (enc1 shift x).toNat / 16 % 8 = 7 - segment m ∧
    (enc1 shift x).toNat % 16 = 15 - mantissa shift (segment m) m

/-- Rule R155: compression is monotonic, for both values of `SEG0_SHIFT`. -/
def Obligations.CompressionIsMonotonic : Prop :=
  ∀ (shift : Nat) (a b : Sample), (shift = 3 ∨ shift = 4) →
    (a.toInt < 0 ↔ b.toInt < 0) → a.toInt.natAbs < b.toInt.natAbs →
    segment (biased (magnitude a)) ≤ segment (biased (magnitude b)) ∧
    ulawCode shift a ≤ ulawCode shift b ∧
    (enc1 shift b).toNat ≤ (enc1 shift a).toNat

/-- Rule R157: sign symmetry, at this hardware's `SEG0_SHIFT = 3`. -/
def Obligations.SignSymmetry : Prop :=
  (∀ x y : Sample, 1 ≤ x.toInt → y.toInt = -x.toInt →
    (enc1 3 y).toNat + 0x80 = (enc1 3 x).toNat) ∧
  (enc1 3 0x8000#16 = 0x00#8 ∧ (enc1 3 0x8000#16).toNat + 0x80 = (enc1 3 0x7FFF#16).toNat) ∧
  (∀ x : Sample, (0 ≤ x.toInt → (enc1 3 x).getLsbD 7 = true) ∧
    (x.toInt < 0 → (enc1 3 x).getLsbD 7 = false)) ∧
  (enc1 3 0x0000#16 = 0xFF#8 ∧ enc1 3 0xFFFF#16 = 0x7F#8 ∧ enc1 3 0xFFFE#16 = 0x7F#8 ∧
    enc1 3 0xFFFD#16 = 0x7F#8)

/-- Rule R158: the clip saturates the output, from 31612 on and to −31612 down; there the segment is 7 and
the mantissa 15. -/
def Obligations.ClipSaturatesTheOutput : Prop :=
  ∀ x : Sample,
    let m := biased (magnitude x)
    (31612 ≤ x.toInt → enc1 3 x = 0x80#8) ∧ (x.toInt ≤ -31612 → enc1 3 x = 0x00#8) ∧ m ≤ 32767 ∧
    (31612 ≤ x.toInt.natAbs → 31744 ≤ m ∧ segment m = 7 ∧ mantissa 3 7 m = 15)

/-- Rule R29: the ranges of the encoder's intermediate values, for both values of `SEG0_SHIFT`. -/
def Obligations.IntermediateValuesFitTheirWidths : Prop :=
  ∀ (shift : Nat) (x : Sample), (shift = 3 ∨ shift = 4) →
    let m := biased (magnitude x)
    (signBit x = 0 ∨ signBit x = 0x80) ∧ magnitude x ≤ 32768 ∧ min (magnitude x) clip ≤ 32635 ∧
    132 ≤ m ∧ m ≤ 32767 ∧ 1 ≤ m >>> 7 ∧ m >>> 7 ≤ 255 ∧ segment m ≤ 7 ∧
    mantissa shift (segment m) m ≤ 15 ∧ ulawCode shift x ≤ 255

/-- Rule R78: at `SEG0_SHIFT = 3` all 256 output bytes occur; at `SEG0_SHIFT = 4` exactly the sixteen
bytes 0x78..0x7F and 0xF8..0xFF do not. -/
def Obligations.EveryOutputByteOccurs : Prop :=
  (∀ b : Byte, ∃ x : Sample, enc1 3 x = b) ∧
  (∀ b : Byte, (∃ x : Sample, enc1 4 x = b) ↔
    ¬ ((0x78 ≤ b.toNat ∧ b.toNat ≤ 0x7F) ∨ 0xF8 ≤ b.toNat))

/-- Rules R151 and R240: encoding up to `lanes` samples at once gives the same bytes, for every number of
lanes that rule R6 allows, this hardware's OPEN one among them. -/
def Obligations.EncoderLanesCannotBeObserved : Prop :=
  (∀ (shift lanes : Nat) (xs : List Sample), 1 ≤ lanes →
    encodeInLanes shift lanes xs.length xs = xs.map (enc1 shift)) ∧
  ∀ (xs : List Sample) (s : State), exec (.ulawEncSeq xs) s =
    .next { s with
      pending := none
      resp := some ⟨.ok, some (.codes (encodeInLanes 3 hw.encLanes xs.length xs))⟩ }

/-! ## The chunk locator -/

/-- Rules R100 to R103 and R105: `CHUNK_FIND` completes on every attached buffer. It returns the least
candidate position that holds the id, and NotFound, with status `OK`, exactly when none does. -/
def Obligations.ChunkFindReturnsTheFirstMatch : Prop :=
  ∀ (id : ChunkId) (bytes : List Byte) (s : State), s.buf = some (memoryOf bytes) →
    ∃ o : Option Nat,
      exec (.chunkFind id) s = .next { s with pending := none, resp := some ⟨.ok, some (.offset o)⟩ } ∧
      (∀ i, o = some i ↔ firstTagAt false bytes id i) ∧ (o = none ↔ noTag false bytes id)

/-- Rules R100 to R105 for both values of `SCAN_LAST_WINDOW`: the scan itself. -/
def Obligations.ScanFindsTheFirstMatchInBothConfigurations : Prop :=
  ∀ (lastWindow : Bool) (id : ChunkId) (bytes : List Byte),
    ∃ o : Option Nat, findChunk lastWindow (memoryOf bytes) id = .ok o ∧
      (∀ i, o = some i ↔ firstTagAt lastWindow bytes id i) ∧ (o = none ↔ noTag lastWindow bytes id)

/-- Rule R104: a short buffer gives NotFound and nothing is read: the result is the same on any list of
cells of that length, even one on which every read would fault. -/
def Obligations.ShortBuffersAreNotRead : Prop :=
  ∀ (id : ChunkId) (m : Memory),
    (m.length ≤ 16 → findChunk false m id = .ok none) ∧
    (m.length ≤ 15 → findChunk true m id = .ok none)

/-- Rule R107: the scan reads neither the header nor the last byte; with `SCAN_LAST_WINDOW` it may read
the last byte. On any list of cells in which the addresses 12 to `L − 2` exist, it does not fault, even
where reading any other address would; and two buffers of one length that agree on those addresses give
the same result. -/
def Obligations.ScanReadsOnlyItsWindow : Prop :=
  (∀ (id : ChunkId) (m : Memory),
    ((∀ a, 12 ≤ a → a + 1 < m.length → ∃ b, memRead m a = .ok b) → ∃ o, findChunk false m id = .ok o) ∧
    ((∀ a, 12 ≤ a → a < m.length → ∃ b, memRead m a = .ok b) → ∃ o, findChunk true m id = .ok o)) ∧
  ∀ (id : ChunkId) (bytes bytes' : List Byte), bytes.length = bytes'.length →
    ((∀ a, 12 ≤ a → a + 1 < bytes.length → bytes[a]? = bytes'[a]?) →
      findChunk false (memoryOf bytes) id = findChunk false (memoryOf bytes') id) ∧
    ((∀ a, 12 ≤ a → a < bytes.length → bytes[a]? = bytes'[a]?) →
      findChunk true (memoryOf bytes) id = findChunk true (memoryOf bytes') id)

/-- Rule R109: the scan ends after at most `L − 16` candidates (`L − 15` with `SCAN_LAST_WINDOW`): with any
larger allowance it gives the same result. -/
def Obligations.ScanIsBounded : Prop :=
  ∀ (id : ChunkId) (m : Memory) (n : Nat),
    (m.length - 16 ≤ n → scanFrom false m id n 12 = findChunk false m id) ∧
    (m.length - 15 ≤ n → scanFrom true m id n 12 = findChunk true m id)

/-- Rule R106: the scan reproduces false matches. A `"data"` pattern at any candidate position decides the
result, whatever stands after it: no chunk at a higher offset is ever returned. -/
def Obligations.FalseMatchesAreReproduced : Prop :=
  ∀ (id : ChunkId) (bytes : List Byte) (s : State) (i : Nat), s.buf = some (memoryOf bytes) →
    12 ≤ i → i + 4 < bytes.length → tagAt bytes id i →
    ∃ j, j ≤ i ∧ tagAt bytes id j ∧
      exec (.chunkFind id) s =
        .next { s with pending := none, resp := some ⟨.ok, some (.offset (some j))⟩ }

/-! ## Extraction, unpacking and the pipeline -/

/-- Rules R120 to R123, R202, R203 and R205: `DATA_EXTRACT` completes on every attached buffer, with the
status of the first check that fails, and with the payload's place when none does. All sums are on
naturals. -/
def Obligations.DataExtractChecksInOrder : Prop :=
  ∀ (bytes : List Byte) (s : State), s.buf = some (memoryOf bytes) →
    (noTag false bytes tagData →
      exec .dataExtract s = .next { s with pending := none, resp := some ⟨.chunkNotFound, none⟩ }) ∧
    (∀ o, firstTagAt false bytes tagData o → bytes.length < o + 8 →
      exec .dataExtract s = .next { s with pending := none, resp := some ⟨.truncatedPayload, none⟩ }) ∧
    (∀ o, firstTagAt false bytes tagData o → o + 8 ≤ bytes.length →
      bytes.length < o + 8 + sizeAt bytes (o + 4) →
      exec .dataExtract s = .next { s with pending := none, resp := some ⟨.truncatedPayload, none⟩ }) ∧
    (∀ o, firstTagAt false bytes tagData o → o + 8 + sizeAt bytes (o + 4) ≤ bytes.length →
      exec .dataExtract s =
        .next { s with
          pending := none
          resp := some ⟨.ok, some (.extent (o + 8) (sizeAt bytes (o + 4)))⟩ })

/-- Rules R125 to R128: `PCM_UNPACK` completes in every state, on every list of bytes; sample `k` is the
little-endian two's-complement pair at bytes `2k` and `2k + 1`, and an odd last byte is dropped. -/
def Obligations.PcmUnpackPairsBytes : Prop :=
  ∀ (bs : List Byte) (s : State), ∃ xs : List Sample,
    exec (.pcmUnpack bs) s = .next { s with pending := none, resp := some ⟨.ok, some (.samples xs)⟩ } ∧
    xs.length = bs.length / 2 ∧
    ∀ (k : Nat) (x : Sample), xs[k]? = some x →
      x.toInt = sext16 (byteVal bs (2 * k) + 256 * byteVal bs (2 * k + 1))

/-- Rules R170 to R172: `WAV_TO_ULAW` completes on every attached buffer: the extractor's error status
alone, or one output byte for each of the `floor(size / 2)` samples of the payload, in order. -/
def Obligations.WavToUlawEncodesThePayload : Prop :=
  ∀ (bytes : List Byte) (s : State), s.buf = some (memoryOf bytes) →
    (noTag false bytes tagData →
      exec .wavToUlaw s = .next { s with pending := none, resp := some ⟨.chunkNotFound, none⟩ }) ∧
    (∀ o, firstTagAt false bytes tagData o →
      (bytes.length < o + 8 ∨ bytes.length < o + 8 + sizeAt bytes (o + 4)) →
      exec .wavToUlaw s = .next { s with pending := none, resp := some ⟨.truncatedPayload, none⟩ }) ∧
    (∀ o, firstTagAt false bytes tagData o → o + 8 + sizeAt bytes (o + 4) ≤ bytes.length →
      ∃ out : List Byte,
        exec .wavToUlaw s = .next { s with pending := none, resp := some ⟨.ok, some (.codes out)⟩ } ∧
        out.length = sizeAt bytes (o + 4) / 2 ∧
        ∀ k, k < sizeAt bytes (o + 4) / 2 → ∃ x : Sample, out[k]? = some (enc1 3 x) ∧
          x.toInt = sext16 (byteVal bytes (o + 8 + 2 * k) + 256 * byteVal bytes (o + 8 + 2 * k + 1)))

/-- Rule R173: `WAV_TO_ULAW` gives the result of the Host's issuing `DATA_EXTRACT`, then `PCM_UNPACK` on its
own copy of the payload bytes, then `ULAW_ENC_SEQ` on the samples. -/
def Obligations.PipelineEqualsTheThreeCommands : Prop :=
  ∀ (bytes : List Byte) (s s1 : State), s.buf = some (memoryOf bytes) → exec .dataExtract s = .next s1 →
    (∀ st, s1.resp = some ⟨st, none⟩ → exec .wavToUlaw s = .next s1) ∧
    (∀ start size, s1.resp = some ⟨.ok, some (.extent start size)⟩ →
      ∃ (s2 : State) (xs : List Sample),
        exec (.pcmUnpack ((bytes.drop start).take size)) s1 = .next s2 ∧
        s2.resp = some ⟨.ok, some (.samples xs)⟩ ∧
        exec .wavToUlaw s = exec (.ulawEncSeq xs) s2)

/-! ## Whole-machine rules -/

/-- Rules R42 and R206: whatever the command, a `perform` that gives a next state leaves the buffer, and so
every byte read from it, and the Host's side unchanged; only `pending` and `resp` change. -/
def Obligations.PerformChangesOnlyPendingAndResponse : Prop :=
  ∀ (i : Instr) (s t : State), exec i s = .next t →
    t.buf = s.buf ∧ t.stream = s.stream ∧ t.moves = s.moves ∧ t.taken = s.taken ∧ t.pending = none ∧
    ∀ m, s.buf = some m → ∃ m', t.buf = some m' ∧ ∀ a, memRead m' a = memRead m a

/-- Rule R75: every `perform` that gives a next state has responded, and the result is `none` exactly when
the status is not `OK`. -/
def Obligations.ResultIsNoneExactlyOnErrors : Prop :=
  ∀ (i : Instr) (s t : State), exec i s = .next t →
    ∃ r, t.resp = some r ∧ t.pending = none ∧ (r.result = none ↔ r.status ≠ .ok)

/-- Rule R201: `ULAW_ENC`, `ULAW_ENC_SEQ` and `PCM_UNPACK` always respond `OK`, and so does `CHUNK_FIND` on
every attached buffer. -/
def Obligations.FourCommandsAlwaysRespondOk : Prop :=
  ∀ (i : Instr) (s : State),
    ((∃ x, i = .ulawEnc x) ∨ (∃ xs, i = .ulawEncSeq xs) ∨ (∃ bs, i = .pcmUnpack bs) ∨
      ((∃ id, i = .chunkFind id) ∧ ∃ bytes, s.buf = some (memoryOf bytes))) →
    ∃ v, exec i s = .next { s with pending := none, resp := some ⟨.ok, some v⟩ }

/-- Rule R21: the response depends on the command and the buffer alone; for a command that does not read
the buffer, on the command alone (rule R27). -/
def Obligations.ResponseDependsOnCommandAndBufferAlone : Prop :=
  ∀ (i : Instr) (s s' t : State), (i.readsBuffer = true → s'.buf = s.buf) → exec i s = .next t →
    exec i s' = .next { s' with pending := none, resp := t.resp }

/-- Rule R234: while a command is pending no step changes the buffer, but a reset, which abandons the
command and detaches the buffer (rule R231). -/
def Obligations.BufferIsStableWhilePending : Prop :=
  ∀ s t : State, s.pending ≠ none → step s = .next t →
    t.buf = s.buf ∨ ((∃ ms, s.moves = .reset :: ms) ∧ t.buf = none ∧ t.pending = none ∧ t.resp = none)

/-- The invariant holds right after reset. -/
def Obligations.ResetStateIsSound : Prop := core.reset.Inv

/-- Every step keeps the invariant (rules R26, R27, R40, R66, R72, R74 and R75), whatever `MAX_LEN` is. -/
def Obligations.EveryStepKeepsTheInvariant : Prop :=
  ∀ s t : State, s.Inv → step s = .next t → t.Inv

/-- Rule R41: from a sound state no step reads outside the buffer, so no step faults. -/
def Obligations.NoStepReadsOutOfBounds : Prop :=
  ∀ (s : State) (f : Fault), s.Inv → step s ≠ .fault f

/-- Rules R206 and R239: from a sound state every pending command completes in one step of the Block. -/
def Obligations.EveryPendingCommandCompletes : Prop :=
  ∀ (s : State) (i : Instr), s.Inv → s.pending = some i →
    ∃ r, exec i s = .next { s with pending := none, resp := some r } ∧ responseFits r = true

/-- Rule R233: commands are performed one at a time, in the order they are issued. A stream of whole
commands, each issued, performed and its response taken, ends with the responses taken in that
order, each the one its command has on this buffer; the run is then over (rule R241). -/
def Obligations.StreamOfCommandsRunsInOrder : Prop :=
  ∀ (is : List Instr) (s : State), s.Inv → s.pending = none →
    (∀ i ∈ is, i.wellFormed = true ∧ (i.readsBuffer = true → s.buf ≠ none)) →
    s.stream = is.flatMap encode → s.moves = is.flatMap (fun _ => [.issue, .perform, .take]) →
    is ≠ [] →
    ∃ (rs : List Response) (t : State), List.Forall₂ (respondsTo s.buf) is rs ∧
      runSteps (3 * is.length) s = .next t ∧
      t = { s with pending := none, resp := none, stream := [], moves := [], taken := s.taken ++ rs } ∧
      t.over ∧ t.observation = s.taken ++ rs

/-- Rules R239 and R241: when the Host makes no further move, a pending command is still performed, and
with none pending the machine is at rest; the run is over exactly when it is at rest and its stream has no
further whole command. That the rest is a refusal is the model's choice (assumption log 3). -/
def Obligations.RunEndsOnlyWithNothingPending : Prop :=
  ∀ s : State, s.Inv → s.moves = [] →
    (step s = .refused .noMove ↔ s.pending = none) ∧
    (s.pending ≠ none → ∃ t, step s = .next t ∧ t.pending = none ∧ t.resp ≠ none) ∧
    (s.over ↔ step s = .refused .noMove ∧ ∀ i rest, decode s.stream ≠ .whole i rest)

/-! ## Responses -/

/-- Rule R200: the status bytes. -/
def Obligations.StatusBytes : Prop :=
  statusByte .ok = 0x00#8 ∧ statusByte .chunkNotFound = 0x01#8 ∧ statusByte .truncatedPayload = 0x02#8 ∧
    statusByte .illegalCommand = 0x03#8 ∧
    (∀ r : Response, (responseBytes r)[0]? = some (statusByte r.status)) ∧
    (∀ st st' : Status, statusByte st = statusByte st' → st = st') ∧
    (∀ st : Status, (statusByte st).toNat ≤ 3)

/-- Rules R66 and R74: the byte layout of every response. -/
def Obligations.ResponseLayouts : Prop :=
  (∀ st, responseBytes ⟨st, none⟩ = [statusByte st]) ∧
  (∀ b, responseBytes ⟨.ok, some (.code b)⟩ = [0x00#8, b]) ∧
  (∀ bs : List Byte, bs.length < 2 ^ 32 → ∃ n0 n1 n2 n3 : Byte,
    responseBytes ⟨.ok, some (.codes bs)⟩ = [0x00#8, n0, n1, n2, n3] ++ bs ∧
    n0.toNat + 256 * n1.toNat + 65536 * n2.toNat + 16777216 * n3.toNat = bs.length) ∧
  (responseBytes ⟨.ok, some (.offset none)⟩ = 0x00#8 :: List.replicate 8 0xFF#8) ∧
  (∀ o, o < 2 ^ 63 → ∃ f, responseBytes ⟨.ok, some (.offset (some o))⟩ = 0x00#8 :: f ∧ f.length = 8 ∧
    ofLeBytes f = o) ∧
  (∀ start size, start < 2 ^ 63 → size < 2 ^ 32 → ∃ f g,
    responseBytes ⟨.ok, some (.extent start size)⟩ = 0x00#8 :: (f ++ g) ∧ f.length = 8 ∧
    g.length = 4 ∧ ofLeBytes f = start ∧ ofLeBytes g = size) ∧
  (∀ xs : List Sample, xs.length < 2 ^ 32 → ∃ f g,
    responseBytes ⟨.ok, some (.samples xs)⟩ = 0x00#8 :: (f ++ g) ∧ f.length = 4 ∧
    ofLeBytes f = xs.length ∧ g.length = 2 * xs.length ∧
    ∀ (k : Nat) (x : Sample), xs[k]? = some x → byteVal g (2 * k) + 256 * byteVal g (2 * k + 1) = x.toNat)

/-- Rules R66 and R74: from a sound state, the Host reads from the response bytes of a command exactly the
response the Block gave: every field is wide enough. -/
def Obligations.ResponseBytesReadBack : Prop :=
  ∀ (i : Instr) (s t : State) (r : Response), s.Inv → s.pending = some i → exec i s = .next t →
    t.resp = some r → responseOfBytes i (responseBytes r) = some r

/-! ## The end of a run, and the configuration -/

/-- Rule R241: the end of a run is final. Once nothing is pending and no whole command is still to come on
the Host's command stream, every step keeps it so, and every step but a reset keeps the observation. That
a reset step keeps it so rests on the model's choice of assumption log 2 (DESIGN CHOICE: a reset leaves the
Host's stream as it is), no rule of the spec: R241 says nothing of what a reset abandons. -/
def Obligations.OverRunStaysOver : Prop :=
  ∀ s t : State, s.over → step s = .next t →
    t.over ∧ ((∀ ms, s.moves ≠ .reset :: ms) → t.observation = s.observation)

/-- Rules R6 and R25: the block of this hardware is the configured one at a configuration that rule R6
allows, with the values of the spec's choices C1 and C2 (assumption logs 8 and 9). -/
def Obligations.StepIsTheConfiguredStepOfThisHardware : Prop :=
  hw.legal = true ∧ hw.seg0Shift = 3 ∧ hw.scanLastWindow = false ∧
  (∀ (i : Instr) (s : State), execWith hw i s = exec i s) ∧ ∀ s : State, stepWith hw s = step s

/-- Rules R25, R100, R120, R150, R151 and R170: what each command responds in a block of any configuration.
`SEG0_SHIFT` decides the output bytes and `SCAN_LAST_WINDOW` the scan; `MAX_LEN` and `ENC_LANES` decide
no response, and `PCM_UNPACK` and `ILLEGAL` depend on no parameter. -/
def Obligations.CommandsFollowTheConfiguration : Prop :=
  ∀ (c : Config) (s : State),
    (∀ x, execWith c (.ulawEnc x) s =
      .next { s with pending := none, resp := some ⟨.ok, some (.code (enc1 c.seg0Shift x))⟩ }) ∧
    (∀ xs, execWith c (.ulawEncSeq xs) s =
      .next { s with
        pending := none
        resp := some ⟨.ok, some (.codes (xs.map (enc1 c.seg0Shift)))⟩ }) ∧
    (∀ bs, execWith c (.pcmUnpack bs) s = exec (.pcmUnpack bs) s) ∧
    (∀ op, execWith c (.illegal op) s = exec (.illegal op) s) ∧
    ∀ bytes, s.buf = some (memoryOf bytes) →
      (∀ id, ∃ o : Option Nat,
        execWith c (.chunkFind id) s =
          .next { s with pending := none, resp := some ⟨.ok, some (.offset o)⟩ } ∧
        (∀ i, o = some i ↔ firstTagAt c.scanLastWindow bytes id i) ∧
        (o = none ↔ noTag c.scanLastWindow bytes id)) ∧
      (noTag c.scanLastWindow bytes tagData → ∀ i, (i = .dataExtract ∨ i = .wavToUlaw) →
        execWith c i s = .next { s with pending := none, resp := some ⟨.chunkNotFound, none⟩ }) ∧
      (∀ o, firstTagAt c.scanLastWindow bytes tagData o →
        (bytes.length < o + 8 ∨ bytes.length < o + 8 + sizeAt bytes (o + 4)) →
        ∀ i, (i = .dataExtract ∨ i = .wavToUlaw) →
        execWith c i s = .next { s with pending := none, resp := some ⟨.truncatedPayload, none⟩ }) ∧
      (∀ o, firstTagAt c.scanLastWindow bytes tagData o →
        o + 8 + sizeAt bytes (o + 4) ≤ bytes.length →
        execWith c .dataExtract s =
          .next { s with
            pending := none
            resp := some ⟨.ok, some (.extent (o + 8) (sizeAt bytes (o + 4)))⟩ } ∧
        ∃ xs : List Sample, xs.length = sizeAt bytes (o + 4) / 2 ∧
          execWith c .wavToUlaw s =
            .next { s with
              pending := none
              resp := some ⟨.ok, some (.codes (xs.map (enc1 c.seg0Shift)))⟩ } ∧
          ∀ (k : Nat) (x : Sample), xs[k]? = some x → x.toInt =
            sext16 (byteVal bytes (o + 8 + 2 * k) + 256 * byteVal bytes (o + 8 + 2 * k + 1)))

/-- Rules R6, R25, R40 and R41: in a block of every configuration that rule R6 allows, every step keeps the
invariant with that configuration's `MAX_LEN`, no step reads outside the buffer, and every pending
command completes. -/
def Obligations.EveryConfiguredStepKeepsTheInvariant : Prop :=
  ∀ (c : Config) (s : State), c.legal = true → s.InvFor c →
    (∀ t, stepWith c s = .next t → t.InvFor c) ∧
    (∀ f, stepWith c s ≠ .fault f) ∧
    ∀ i, s.pending = some i →
      ∃ r, execWith c i s = .next { s with pending := none, resp := some r } ∧ responseFits r = true
end

