-- ==== Sys2Proof/Laws/Operands.lean ====
section
/-! SUPPORT. The operand forms in arithmetic: little-endian assembly and its inverse, sign extension,
and the pairing of bytes into samples. -/

namespace Sys2Proof.Machine

theorem lor_shift (a b i : Nat) (h : a < 2 ^ i) : a ||| b <<< i = a + 2 ^ i * b := by
  rw [Nat.or_comm, ← Nat.shiftLeft_add_eq_or_of_lt h, Nat.shiftLeft_eq]
  ring

theorem le16_eq (b0 b1 : Byte) : le16 b0 b1 = b0.toNat + 256 * b1.toNat :=
  lor_shift _ _ 8 b0.isLt

theorem le32_eq (b0 b1 b2 b3 : Byte) :
    le32 b0 b1 b2 b3 =
      b0.toNat + 256 * b1.toNat + 65536 * b2.toNat + 16777216 * b3.toNat := by
  have h0 := b0.isLt
  have h1 := b1.isLt
  have h2 := b2.isLt
  unfold le32
  rw [lor_shift _ _ 8 h0, lor_shift _ _ 16 (by omega), lor_shift _ _ 24 (by omega)]
  norm_num

theorem le32_lt (b0 b1 b2 b3 : Byte) : le32 b0 b1 b2 b3 < 2 ^ 32 := by
  have h0 := b0.isLt
  have h1 := b1.isLt
  have h2 := b2.isLt
  have h3 := b3.isLt
  rw [le32_eq]
  omega

@[simp] theorem leBytes_length (n v : Nat) : (leBytes n v).length = n := by
  induction n generalizing v with
  | zero => rfl
  | succ n ih => simp [leBytes, ih]

theorem ofLeBytes_leBytes (n v : Nat) : ofLeBytes (leBytes n v) = v % 256 ^ n := by
  induction n generalizing v with
  | zero => simp [leBytes, ofLeBytes, Nat.mod_one]
  | succ n ih =>
    simp only [leBytes, ofLeBytes, ih, BitVec.toNat_ofNat]
    rw [pow_succ' 256 n, Nat.mod_mul]

theorem ofLeBytes_leBytes_of_lt {n v : Nat} (h : v < 256 ^ n) : ofLeBytes (leBytes n v) = v := by
  rw [ofLeBytes_leBytes, Nat.mod_eq_of_lt h]

/-- The four bytes of a 32-bit count, and what they denote. -/
theorem leBytes_four (v : Nat) (h : v < 2 ^ 32) :
    ∃ b0 b1 b2 b3 : Byte, leBytes 4 v = [b0, b1, b2, b3] ∧ le32 b0 b1 b2 b3 = v := by
  refine ⟨_, _, _, _, rfl, ?_⟩
  simp only [le32_eq, BitVec.toNat_ofNat]
  omega

theorem leBytes_le32 (b0 b1 b2 b3 : Byte) : leBytes 4 (le32 b0 b1 b2 b3) = [b0, b1, b2, b3] := by
  have h0 := b0.isLt
  have h1 := b1.isLt
  have h2 := b2.isLt
  have h3 := b3.isLt
  simp only [leBytes, le32_eq, List.cons.injEq, and_true]
  refine ⟨?_, ?_, ?_, ?_⟩ <;> apply BitVec.eq_of_toNat_eq <;> simp only [BitVec.toNat_ofNat] <;> omega

theorem sampleOf_toNat (lo hi : Byte) : (sampleOf lo hi).toNat = lo.toNat + 256 * hi.toNat := by
  have h0 := lo.isLt
  have h1 := hi.isLt
  simp only [sampleOf, le16_eq, BitVec.toNat_ofNat]
  omega

/-- The value of a sample is `sext_16` of its pattern (rule R60). -/
theorem toInt_eq_sext16 (x : Sample) : x.toInt = sext16 x.toNat := by
  have h := x.isLt
  rw [BitVec.toInt_eq_toNat_cond]
  unfold sext16
  split <;> split <;> omega

@[simp] theorem sampleBytes_length (x : Sample) : (sampleBytes x).length = 2 := rfl

theorem sampleOf_sampleBytes (x : Sample) :
    ∃ lo hi : Byte, sampleBytes x = [lo, hi] ∧ sampleOf lo hi = x := by
  refine ⟨_, _, rfl, ?_⟩
  have h := x.isLt
  apply BitVec.eq_of_toNat_eq
  simp only [sampleOf_toNat, BitVec.toNat_ofNat]
  omega

theorem sampleBytes_sampleOf (lo hi : Byte) : sampleBytes (sampleOf lo hi) = [lo, hi] := by
  have h0 := lo.isLt
  have h1 := hi.isLt
  simp only [sampleBytes, sampleOf_toNat, leBytes, List.cons.injEq, and_true]
  refine ⟨?_, ?_⟩ <;> apply BitVec.eq_of_toNat_eq <;> simp only [BitVec.toNat_ofNat] <;> omega

theorem flatMap_sampleBytes_length (xs : List Sample) :
    (xs.flatMap sampleBytes).length = 2 * xs.length := by
  induction xs with
  | nil => rfl
  | cons x xs ih => simp [ih]; omega

theorem unpack_length (bs : List Byte) : (unpack bs).length = bs.length / 2 := by
  induction bs using unpack.induct with
  | case1 lo hi rest ih =>
    simp only [unpack, List.length_cons, ih]
    omega
  | case2 bs h =>
    match bs, h with
    | [], _ => rfl
    | [_], _ => simp [unpack]
    | lo :: hi :: rest, h => exact (h lo hi rest rfl).elim

/-- Sample `k` is the pair at bytes `2k` and `2k + 1` (rule R61). -/
theorem unpack_getElem? (bs : List Byte) (k : Nat) (x : Sample) (h : (unpack bs)[k]? = some x) :
    ∃ lo hi, bs[2 * k]? = some lo ∧ bs[2 * k + 1]? = some hi ∧ x = sampleOf lo hi := by
  induction bs using unpack.induct generalizing k with
  | case1 lo hi rest ih =>
    cases k with
    | zero => simp [unpack] at h; exact ⟨lo, hi, rfl, rfl, h.symm⟩
    | succ k =>
      obtain ⟨l, r, hl, hr, hx⟩ := ih k (by simpa [unpack] using h)
      exact ⟨l, r, by simpa [Nat.mul_add] using hl, by simpa [Nat.mul_add] using hr, hx⟩
  | case2 bs hb =>
    have : unpack bs = [] := by
      match bs, hb with
      | [], _ => rfl
      | [_], _ => rfl
      | lo :: hi :: rest, hb => exact (hb lo hi rest rfl).elim
    simp [this] at h

/-- Unpacking the bytes of whole samples gives the samples back. -/
theorem unpack_flatMap_sampleBytes (xs : List Sample) : unpack (xs.flatMap sampleBytes) = xs := by
  induction xs with
  | nil => rfl
  | cons x xs ih =>
    obtain ⟨lo, hi, hb, hx⟩ := sampleOf_sampleBytes x
    simp [hb, unpack, hx, ih]

/-- The OPEN parameter stays in the range of rule R40. -/
theorem hw_maxLen_ge : 17 ≤ hw.maxLen := Nat.le_add_right _ _

theorem hw_maxLen_le : hw.maxLen ≤ 2 ^ 63 - 1 := by
  have h : hw.maxLen = 17 + Config.maxLenFree % (2 ^ 63 - 17) := rfl
  have := Nat.mod_lt Config.maxLenFree (y := 2 ^ 63 - 17) (by norm_num)
  omega

theorem hw_encLanes_pos : 1 ≤ hw.encLanes := Nat.le_add_right _ _

/-- This hardware's configuration is one that rule R6 allows. -/
theorem hw_legal : hw.legal = true := by
  have h := hw_maxLen_le
  simp [Config.legal, hw_maxLen_ge, hw_encLanes_pos, show hw.seg0Shift = 3 from rfl]
  omega

end Sys2Proof.Machine
end

