-- ==== Sys2Proof/Laws/Decode.lean ====
section
/-! SUPPORT. What each piece of the decoder takes from the front of a byte list, in both directions, and
when it waits for more. -/

namespace Sys2Proof

open Machine

theorem takeSample_append (x : Sample) (rest : List Byte) :
    takeSample (sampleBytes x ++ rest) = some (x, rest) := by
  obtain ⟨lo, hi, hb, hx⟩ := sampleOf_sampleBytes x
  simp [hb, takeSample, hx]

theorem takeSample_some {bs rest : List Byte} {x : Sample} (h : takeSample bs = some (x, rest)) :
    bs = sampleBytes x ++ rest := by
  match bs, h with
  | lo :: hi :: r, h =>
    simp only [takeSample, Option.some.injEq, Prod.mk.injEq] at h
    rw [← h.1, ← h.2, sampleBytes_sampleOf]
    rfl

theorem takeId_append (id : ChunkId) (rest : List Byte) :
    takeId (id.toList ++ rest) = some (id, rest) := rfl

theorem takeId_some {bs rest : List Byte} {id : ChunkId} (h : takeId bs = some (id, rest)) :
    bs = id.toList ++ rest := by
  match bs, h with
  | _ :: _ :: _ :: _ :: r, h =>
    simp only [takeId, Option.some.injEq, Prod.mk.injEq] at h
    rw [← h.1, ← h.2]
    rfl

theorem takeCount_append {n : Nat} (h : n < 2 ^ 32) (rest : List Byte) :
    takeCount (leBytes 4 n ++ rest) = some (n, rest) := by
  obtain ⟨b0, b1, b2, b3, hb, hn⟩ := leBytes_four n h
  simp [hb, takeCount, hn]

theorem takeCount_some {bs rest : List Byte} {n : Nat} (h : takeCount bs = some (n, rest)) :
    bs = leBytes 4 n ++ rest ∧ n < 2 ^ 32 := by
  match bs, h with
  | b0 :: b1 :: b2 :: b3 :: r, h =>
    simp only [takeCount, Option.some.injEq, Prod.mk.injEq] at h
    rw [← h.1, ← h.2, leBytes_le32]
    exact ⟨rfl, le32_lt _ _ _ _⟩

theorem takeCount_none {bs : List Byte} (h : takeCount bs = none) : bs.length < 4 := by
  match bs, h with
  | [], _ => simp
  | [_], _ => simp
  | [_, _], _ => simp
  | [_, _, _], _ => simp

theorem takeSamples_append (xs : List Sample) (rest : List Byte) :
    takeSamples xs.length (xs.flatMap sampleBytes ++ rest) = some (xs, rest) := by
  induction xs with
  | nil => rfl
  | cons x xs ih =>
    obtain ⟨lo, hi, hb, hx⟩ := sampleOf_sampleBytes x
    simp [hb, takeSamples, ih, hx]

theorem takeSamples_some {n : Nat} {bs rest : List Byte} {xs : List Sample}
    (h : takeSamples n bs = some (xs, rest)) :
    bs = xs.flatMap sampleBytes ++ rest ∧ xs.length = n := by
  induction n generalizing bs xs with
  | zero =>
    simp only [takeSamples, Option.some.injEq, Prod.mk.injEq] at h
    rw [← h.1, ← h.2]
    exact ⟨rfl, rfl⟩
  | succ n ih =>
    match bs, h with
    | lo :: hi :: r, h =>
      simp only [takeSamples, Option.map_eq_some_iff, Prod.mk.injEq] at h
      obtain ⟨p, hp, rfl, rfl⟩ := h
      obtain ⟨hb, hl⟩ := ih hp
      simp [sampleBytes_sampleOf, hb, hl]

theorem takeSamples_none {n : Nat} {bs : List Byte} (h : takeSamples n bs = none) :
    bs.length < 2 * n := by
  induction n generalizing bs with
  | zero => simp [takeSamples] at h
  | succ n ih =>
    match bs, h with
    | [], _ => simp
    | [_], _ => simp only [List.length_cons, List.length_nil]; omega
    | _ :: _ :: r, h =>
      simp only [takeSamples, Option.map_eq_none_iff] at h
      have := ih h
      simp only [List.length_cons]
      omega

theorem takeBytes_append (bs rest : List Byte) :
    takeBytes bs.length (bs ++ rest) = some (bs, rest) := by
  induction bs with
  | nil => rfl
  | cons b bs ih => simp [takeBytes, ih]

theorem takeBytes_some {n : Nat} {bs rest xs : List Byte} (h : takeBytes n bs = some (xs, rest)) :
    bs = xs ++ rest ∧ xs.length = n := by
  induction n generalizing bs xs with
  | zero =>
    simp only [takeBytes, Option.some.injEq, Prod.mk.injEq] at h
    rw [← h.1, ← h.2]
    exact ⟨rfl, rfl⟩
  | succ n ih =>
    match bs, h with
    | b :: r, h =>
      simp only [takeBytes, Option.map_eq_some_iff, Prod.mk.injEq] at h
      obtain ⟨p, hp, rfl, rfl⟩ := h
      obtain ⟨hb, hl⟩ := ih hp
      simp [hb, hl]

theorem takeBytes_none {n : Nat} {bs : List Byte} (h : takeBytes n bs = none) : bs.length < n := by
  induction n generalizing bs with
  | zero => simp [takeBytes] at h
  | succ n ih =>
    match bs, h with
    | [], _ => simp
    | _ :: r, h =>
      simp only [takeBytes, Option.map_eq_none_iff] at h
      have := ih h
      simp only [List.length_cons]
      omega

/-- A byte that selects `ILLEGAL` is a reserved one, and the other way round (rule R71). -/
theorem opcodeOf_illegal_iff (op : Byte) : opcodeOf op = .illegal ↔ reservedByte op = true := by
  revert op
  decide

/-- The decoder on a list that begins with a command byte. -/
theorem decode_cons (op : Byte) (bs : List Byte) :
    decode (op :: bs) =
      match takeOperands op bs with
      | some (i, rest) => .whole i rest
      | none => .incomplete := rfl

theorem decode_whole_iff {op : Byte} {bs rest : List Byte} {i : Instr} :
    decode (op :: bs) = .whole i rest ↔ takeOperands op bs = some (i, rest) := by
  rw [decode_cons]
  cases h : takeOperands op bs with
  | none => simp
  | some p => obtain ⟨j, r⟩ := p; simp

theorem decode_incomplete_iff {op : Byte} {bs : List Byte} :
    decode (op :: bs) = .incomplete ↔ takeOperands op bs = none := by
  rw [decode_cons]
  cases h : takeOperands op bs with
  | none => simp
  | some p => simp

/-- Bytes after a command's operands do not change what is taken. -/
theorem takeOperands_extend {op : Byte} {bs rest : List Byte} {i : Instr}
    (h : takeOperands op bs = some (i, rest)) (more : List Byte) :
    takeOperands op (bs ++ more) = some (i, rest ++ more) := by
  unfold takeOperands at h ⊢
  cases hop : opcodeOf op <;> simp only [hop] at h ⊢
  case ulawEnc =>
    obtain ⟨⟨x, r⟩, hx, h⟩ := Option.map_eq_some_iff.1 h
    cases h
    rw [takeSample_some hx, List.append_assoc, takeSample_append]
    rfl
  case ulawEncSeq =>
    obtain ⟨⟨n, r⟩, hn, h⟩ := Option.bind_eq_some_iff.1 h
    obtain ⟨⟨xs, r'⟩, hx, h⟩ := Option.map_eq_some_iff.1 h
    cases h
    obtain ⟨rfl, hlt⟩ := takeCount_some hn
    obtain ⟨rfl, rfl⟩ := takeSamples_some hx
    rw [List.append_assoc, takeCount_append hlt, Option.bind_some, List.append_assoc, takeSamples_append]
    rfl
  case chunkFind =>
    obtain ⟨⟨id, r⟩, hx, h⟩ := Option.map_eq_some_iff.1 h
    cases h
    rw [takeId_some hx, List.append_assoc, takeId_append]
    rfl
  case pcmUnpack =>
    obtain ⟨⟨n, r⟩, hn, h⟩ := Option.bind_eq_some_iff.1 h
    obtain ⟨⟨xs, r'⟩, hx, h⟩ := Option.map_eq_some_iff.1 h
    cases h
    obtain ⟨rfl, hlt⟩ := takeCount_some hn
    obtain ⟨rfl, rfl⟩ := takeBytes_some hx
    rw [List.append_assoc, takeCount_append hlt, Option.bind_some, List.append_assoc, takeBytes_append]
    rfl
  all_goals
    cases h
    rfl

/-- A whole command stays whole when more bytes arrive (rule R72). -/
theorem decode_extend {bs rest : List Byte} {i : Instr} (h : decode bs = .whole i rest)
    (more : List Byte) : decode (bs ++ more) = .whole i (rest ++ more) := by
  cases bs with
  | nil => cases h
  | cons op bs => exact decode_whole_iff.2 (takeOperands_extend (decode_whole_iff.1 h) more)

/-- The opcode map read backwards: which byte selects which command (rule R70). -/
theorem opcodeOf_cases (op : Byte) :
    (op = 0x01#8 ∧ opcodeOf op = .ulawEnc) ∨ (op = 0x02#8 ∧ opcodeOf op = .ulawEncSeq) ∨
    (op = 0x03#8 ∧ opcodeOf op = .chunkFind) ∨ (op = 0x04#8 ∧ opcodeOf op = .dataExtract) ∨
    (op = 0x05#8 ∧ opcodeOf op = .pcmUnpack) ∨ (op = 0x06#8 ∧ opcodeOf op = .wavToUlaw) ∨
    (reservedByte op = true ∧ opcodeOf op = .illegal) := by
  revert op
  decide

end Sys2Proof
end

