-- ==== Sys2Proof/Laws/Encoder.lean ====
section
/-! SUPPORT. The ranges and bounds of the encoder's intermediate values (spec/10_state.md rule R29,
spec/42_ulaw_encoder.md rules R141 to R146). -/

namespace Sys2Proof.Machine

theorem magnitude_le (x : Sample) : magnitude x ≤ 32768 := by
  have h1 := BitVec.toInt_lt (x := x)
  have h2 := BitVec.le_toInt (x := x)
  unfold magnitude
  split <;> omega

/-- The biased magnitude fits 15 bits (rule R143). -/
theorem biased_range (mag : Nat) : 132 ≤ biased mag ∧ biased mag ≤ 32767 := by
  unfold biased clip bias
  omega

theorem biased_mono {a b : Nat} (h : a ≤ b) : biased a ≤ biased b := by
  unfold biased
  omega

/-- The segment depends on `m >> 7` alone; its tests, on every value that `m >> 7` can take. -/
theorem segment_eq_of_shift (m : Nat) : segment m = segment ((m >>> 7) <<< 7) := by
  have h : ((m >>> 7) <<< 7) >>> 7 = m >>> 7 := by simp [Nat.shiftLeft_shiftRight]
  simp only [segment, h]

theorem segment_table : ∀ v : Fin 256, 1 ≤ v.val →
    segment (v.val <<< 7) ≤ 7 ∧ 2 ^ segment (v.val <<< 7) ≤ v.val ∧
      v.val < 2 ^ (segment (v.val <<< 7) + 1) := by
  decide +kernel

/-- The segment is the power-of-two range that holds the biased magnitude (rules R144 and R153). -/
theorem segment_bounds {m : Nat} (h1 : 132 ≤ m) (h2 : m ≤ 32767) :
    segment m ≤ 7 ∧ 2 ^ (segment m + 7) ≤ m ∧ m < 2 ^ (segment m + 8) := by
  have hv : m >>> 7 = m / 128 := by simp [Nat.shiftRight_eq_div_pow]
  obtain ⟨ha, hb, hc⟩ := segment_table ⟨m / 128, by omega⟩ (by show 1 ≤ m / 128; omega)
  rw [segment_eq_of_shift m, hv]
  dsimp only at ha hb hc
  generalize segment ((m / 128) <<< 7) = seg at *
  have h7 : 2 ^ (seg + 7) = 2 ^ seg * 128 := by rw [Nat.pow_add]
  have h8 : 2 ^ (seg + 8) = 2 ^ (seg + 1) * 128 := by
    rw [show seg + 8 = seg + 1 + 7 by omega, Nat.pow_add]
  exact ⟨ha, by omega, by omega⟩

/-- The mantissa fits 4 bits (rule R146). -/
theorem mantissa_le (shift seg m : Nat) : mantissa shift seg m ≤ 15 := by
  unfold mantissa
  split <;> exact Nat.and_le_right

/-- The code in arithmetic: its three fields do not overlap (rules R62, R146 and R147). -/
theorem ulawCode_eq (shift : Nat) (x : Sample) :
    ulawCode shift x =
      signBit x + 16 * segment (biased (magnitude x)) +
        mantissa shift (segment (biased (magnitude x))) (biased (magnitude x)) := by
  obtain ⟨h1, h2⟩ := biased_range (magnitude x)
  have hs := (segment_bounds h1 h2).1
  have hm := mantissa_le shift (segment (biased (magnitude x))) (biased (magnitude x))
  simp only [ulawCode]
  generalize mantissa shift (segment (biased (magnitude x))) (biased (magnitude x)) = man at *
  generalize segment (biased (magnitude x)) = seg at *
  rw [Nat.or_comm (seg <<< 4) man, lor_shift man seg 4 (by omega)]
  unfold signBit
  split
  · have := lor_shift (man + 2 ^ 4 * seg) 1 7 (by omega)
    simp only [Nat.one_shiftLeft] at this
    rw [show (0x80 : Nat) = 2 ^ 7 from rfl, this]
    omega
  · rw [Nat.or_zero]
    omega

theorem ulawCode_lt (shift : Nat) (x : Sample) : ulawCode shift x < 256 := by
  obtain ⟨h1, h2⟩ := biased_range (magnitude x)
  have hs := (segment_bounds h1 h2).1
  have hm := mantissa_le shift (segment (biased (magnitude x))) (biased (magnitude x))
  rw [ulawCode_eq]
  unfold signBit
  split <;> omega

/-- The output byte is `255 − code` (rule R148). -/
theorem enc1_toNat (shift : Nat) (x : Sample) : (enc1 shift x).toNat = 255 - ulawCode shift x := by
  have h := ulawCode_lt shift x
  simp only [enc1, BitVec.toNat_not, BitVec.toNat_ofNat]
  omega

end Sys2Proof.Machine
end

