-- ==== Sys2Proof/Laws/Memory.lean ====
section
/-! SUPPORT. The buffer: its canonical form, and reading it. -/

namespace Sys2Proof.Machine

@[simp] theorem memoryFrom_length (a : Nat) (bytes : List Byte) :
    (memoryFrom a bytes).length = bytes.length := by
  induction bytes generalizing a with
  | nil => rfl
  | cons b bs ih => simp [memoryFrom, ih]

@[simp] theorem memoryOf_length (bytes : List Byte) : (memoryOf bytes).length = bytes.length :=
  memoryFrom_length 0 bytes

theorem memoryFrom_addresses (a : Nat) (bytes : List Byte) :
    (memoryFrom a bytes).map Prod.fst = List.range' a bytes.length := by
  induction bytes generalizing a with
  | nil => rfl
  | cons b bs ih => simp [memoryFrom, ih, List.range'_succ]

/-- An attached buffer is canonical. -/
theorem memoryOf_wf (bytes : List Byte) : (memoryOf bytes).wf := by
  show (memoryFrom 0 bytes).map Prod.fst = _
  rw [memoryFrom_addresses, memoryOf_length, List.range_eq_range']

/-- The buffer a loaded command is given is canonical when the one before it was. -/
theorem bufferForIssue_wf {i : Instr} {b : Option Memory} (h : ∀ m, b = some m → m.wf) :
    ∀ m, bufferForIssue i b = some m → m.wf := by
  intro m hm
  cases b with
  | some m' => exact h m (by simpa [bufferForIssue] using hm)
  | none =>
    cases hr : i.readsBuffer with
    | true =>
      have hm' : memoryOf [] = m := by simpa [bufferForIssue, hr] using hm
      exact hm' ▸ memoryOf_wf []
    | false => simp [bufferForIssue, hr] at hm

theorem memoryFrom_of_addresses (a : Nat) (m : Memory)
    (h : m.map Prod.fst = List.range' a m.length) : m = memoryFrom a (m.map Prod.snd) := by
  induction m generalizing a with
  | nil => rfl
  | cons c m ih =>
    simp only [List.map_cons, List.length_cons, List.range'_succ, List.cons.injEq] at h
    simp only [List.map_cons, memoryFrom, List.cons.injEq]
    exact ⟨by rw [← h.1], ih (a + 1) h.2⟩

/-- A canonical buffer is the one that `attach` makes from its bytes. -/
theorem Memory.eq_memoryOf {m : Memory} (h : m.wf) : m = memoryOf (m.map Prod.snd) :=
  memoryFrom_of_addresses 0 m (by rw [← List.range_eq_range']; exact h)

theorem memoryFrom_bytes (a : Nat) (bytes : List Byte) :
    (memoryFrom a bytes).map Prod.snd = bytes := by
  induction bytes generalizing a with
  | nil => rfl
  | cons b bs ih => simp [memoryFrom, ih]

theorem memoryOf_injective {bytes bytes' : List Byte} (h : memoryOf bytes = memoryOf bytes') :
    bytes = bytes' := by
  rw [← memoryFrom_bytes 0 bytes, ← memoryFrom_bytes 0 bytes']
  exact congrArg (List.map Prod.snd) h

theorem memoryFrom_lookup (a k : Nat) (bytes : List Byte) :
    (memoryFrom a bytes).lookup (a + k) = bytes[k]? := by
  induction bytes generalizing a k with
  | nil => rfl
  | cons b bs ih =>
    cases k with
    | zero => simp [memoryFrom]
    | succ k =>
      have h : (a + (k + 1) == a) = false := by simp
      simp only [memoryFrom, List.lookup, h, List.getElem?_cons_succ]
      rw [← ih (a + 1) k]
      congr 1
      omega

/-- Reading an attached buffer (rule R41). -/
theorem memRead_memoryOf (bytes : List Byte) (a : Nat) :
    memRead (memoryOf bytes) a =
      match bytes[a]? with
      | some b => .ok b
      | none => .error (.outOfBoundsRead a) := by
  have h := memoryFrom_lookup 0 a bytes
  rw [Nat.zero_add] at h
  simp only [memRead, memoryOf, h]
  cases bytes[a]? <;> rfl

theorem memRead_ok {bytes : List Byte} {a : Nat} {b : Byte} (h : bytes[a]? = some b) :
    memRead (memoryOf bytes) a = .ok b := by
  rw [memRead_memoryOf, h]

/-- A read at or above `L` faults, whatever the buffer holds (rule R41). -/
theorem memRead_fault {bytes : List Byte} {a : Nat} (h : bytes.length ≤ a) :
    memRead (memoryOf bytes) a = .error (.outOfBoundsRead a) := by
  rw [memRead_memoryOf, List.getElem?_eq_none h]

/-- A range inside an attached buffer reads as that slice of its bytes. -/
theorem memRange_memoryOf (bytes : List Byte) (a n : Nat) (h : a + n ≤ bytes.length) :
    memRange (memoryOf bytes) a n = .ok ((bytes.drop a).take n) := by
  induction n generalizing a with
  | zero => simp [memRange]
  | succ n ih =>
    have ha : a < bytes.length := by omega
    simp only [memRange, memRead_ok (List.getElem?_eq_getElem ha), ih (a + 1) (by omega)]
    rw [List.drop_eq_getElem_cons ha, List.take_succ_cons]
    rfl

/-- A size field inside an attached buffer. -/
theorem memLe32_memoryOf (bytes : List Byte) (a : Nat) (h : a + 4 ≤ bytes.length) :
    memLe32 (memoryOf bytes) a =
      .ok (le32 bytes[a] bytes[a + 1] bytes[a + 2] bytes[a + 3]) := by
  simp only [memLe32, memRead_ok (List.getElem?_eq_getElem (show a < bytes.length by omega)),
    memRead_ok (List.getElem?_eq_getElem (show a + 1 < bytes.length by omega)),
    memRead_ok (List.getElem?_eq_getElem (show a + 2 < bytes.length by omega)),
    memRead_ok (List.getElem?_eq_getElem (show a + 3 < bytes.length by omega))]
  rfl

end Sys2Proof.Machine
end

