-- ==== Sys2Proof/Laws/Scan.lean ====
section
/-! SUPPORT. What the scan of the ChunkLocator computes on an attached buffer (spec/40_chunk_locator.md
rules R100 to R109). -/

namespace Sys2Proof.Machine

/-- The loop condition, as the candidates it admits (rule R102). -/
theorem scanGuard_iff (lastWindow : Bool) (len i : Nat) :
    scanGuard lastWindow len i = true ↔ i + 4 < len ∨ (lastWindow = true ∧ i + 4 = len) := by
  simp [scanGuard]

theorem scanGuard_mono {lastWindow : Bool} {len i j : Nat} (h : scanGuard lastWindow len j = true)
    (hij : i ≤ j) : scanGuard lastWindow len i = true := by
  rw [scanGuard_iff] at *
  rcases Nat.lt_or_ge (i + 4) len with h' | h'
  · exact .inl h'
  · right
    rcases h with h | ⟨h, h2⟩
    · omega
    · exact ⟨h, by omega⟩

/-- A window inside an attached buffer is compared byte by byte, with no fault (rules R103 and R107). -/
theorem windowMatches_memoryOf (bytes : List Byte) (id : ChunkId) (i : Nat)
    (h : i + 4 ≤ bytes.length) :
    ∃ b, windowMatches (memoryOf bytes) id i = .ok b ∧ (b = true ↔ tagAt bytes id i) := by
  have h0 : i < bytes.length := by omega
  have h1 : i + 1 < bytes.length := by omega
  have h2 : i + 2 < bytes.length := by omega
  have h3 : i + 3 < bytes.length := by omega
  simp only [windowMatches, memRead_ok (List.getElem?_eq_getElem h0),
    memRead_ok (List.getElem?_eq_getElem h1), memRead_ok (List.getElem?_eq_getElem h2),
    memRead_ok (List.getElem?_eq_getElem h3)]
  refine ⟨_, rfl, ?_⟩
  simp [tagAt, h0, h1, h2, h3, and_assoc]

/-- The scan from candidate `i` on, with allowance for every later candidate, returns the least matching
candidate from `i` on, and NotFound when there is none; it never faults (rules R100, R105 and
R107). -/
theorem scanFrom_memoryOf (lastWindow : Bool) (bytes : List Byte) (id : ChunkId) (n i : Nat)
    (hn : bytes.length ≤ n + i + 3) :
    ∃ o, scanFrom lastWindow (memoryOf bytes) id n i = .ok o ∧
      (∀ j, o = some j →
        i ≤ j ∧ scanGuard lastWindow bytes.length j = true ∧ tagAt bytes id j ∧
          ∀ k, i ≤ k → k < j → ¬ tagAt bytes id k) ∧
      (o = none → ∀ j, i ≤ j → scanGuard lastWindow bytes.length j = true → ¬ tagAt bytes id j) := by
  induction n generalizing i with
  | zero =>
    refine ⟨none, rfl, by simp, fun _ j hj hg => ?_⟩
    rw [scanGuard_iff] at hg
    omega
  | succ n ih =>
    by_cases hg : scanGuard lastWindow bytes.length i = true
    · have hi : i + 4 ≤ bytes.length := by
        rw [scanGuard_iff] at hg
        omega
      obtain ⟨b, hw, hb⟩ := windowMatches_memoryOf bytes id i hi
      cases b with
      | true =>
        refine ⟨some i, by simp [scanFrom, hg, hw], ?_, by simp⟩
        rintro j ⟨⟩
        exact ⟨le_rfl, hg, hb.1 rfl, fun k h1 h2 => by omega⟩
      | false =>
        have hno : ¬ tagAt bytes id i := fun ht => by simpa using hb.2 ht
        obtain ⟨o, ho, hsome, hnone⟩ := ih (i + 1) (by omega)
        refine ⟨o, by simp [scanFrom, hg, hw, ho], fun j hj => ?_, fun h j hj hgj => ?_⟩
        · obtain ⟨h1, h2, h3, h4⟩ := hsome j hj
          refine ⟨by omega, h2, h3, fun k hk1 hk2 => ?_⟩
          rcases Nat.eq_or_lt_of_le hk1 with rfl | hk
          · exact hno
          · exact h4 k hk hk2
        · rcases Nat.eq_or_lt_of_le hj with rfl | hj'
          · exact hno
          · exact hnone h j hj' hgj
    · refine ⟨none, by simp [scanFrom, hg], by simp, fun _ j hj hgj => ?_⟩
      exact absurd (scanGuard_mono hgj hj) hg

/-- `CHUNK_FIND` on an attached buffer answers, and what it answers is the first tag or NotFound. -/
theorem findChunk_memoryOf (lastWindow : Bool) (bytes : List Byte) (id : ChunkId) :
    ∃ o, findChunk lastWindow (memoryOf bytes) id = .ok o ∧
      (∀ i, o = some i → firstTagAt lastWindow bytes id i) ∧
      (o = none → noTag lastWindow bytes id) := by
  obtain ⟨o, ho, hsome, hnone⟩ :=
    scanFrom_memoryOf lastWindow bytes id bytes.length 12 (by omega)
  refine ⟨o, by simpa [findChunk, scanStart] using ho, fun i hi => ?_, fun h j hj => ?_⟩
  · obtain ⟨h1, h2, h3, h4⟩ := hsome i hi
    exact ⟨⟨h1, (scanGuard_iff _ _ _).1 h2⟩, h3, fun j hj hc => h4 j hc.1 hj⟩
  · exact hnone h j hj.1 ((scanGuard_iff _ _ _).2 hj.2)

/-- At most one position is the first tag. -/
theorem firstTagAt_unique {lastWindow : Bool} {bytes : List Byte} {id : ChunkId} {i j : Nat}
    (hi : firstTagAt lastWindow bytes id i) (hj : firstTagAt lastWindow bytes id j) : i = j := by
  rcases Nat.lt_trichotomy i j with h | h | h
  · exact absurd hi.2.1 (hj.2.2 i h hi.1)
  · exact h
  · exact absurd hj.2.1 (hi.2.2 j h hj.1)

/-- The scan finds the position that is the first tag. -/
theorem findChunk_of_first {lastWindow : Bool} {bytes : List Byte} {id : ChunkId} {i : Nat}
    (h : firstTagAt lastWindow bytes id i) :
    findChunk lastWindow (memoryOf bytes) id = .ok (some i) := by
  obtain ⟨o, ho, hsome, hnone⟩ := findChunk_memoryOf lastWindow bytes id
  cases o with
  | none => exact absurd h.2.1 (hnone rfl i h.1)
  | some j => rw [ho, firstTagAt_unique (hsome j rfl) h]

/-- The scan answers NotFound where no candidate holds the tag. -/
theorem findChunk_of_noTag {lastWindow : Bool} {bytes : List Byte} {id : ChunkId}
    (h : noTag lastWindow bytes id) : findChunk lastWindow (memoryOf bytes) id = .ok none := by
  obtain ⟨o, ho, hsome, -⟩ := findChunk_memoryOf lastWindow bytes id
  cases o with
  | none => exact ho
  | some j => exact absurd (hsome j rfl).2.1 (h j (hsome j rfl).1)

end Sys2Proof.Machine
end

