-- ==== Sys2Proof/Laws/Extract.lean ====
section
/-! SUPPORT. What the extractor answers on an attached buffer, check by check (spec/41_data_extract.md
rules R120 to R123). -/

namespace Sys2Proof.Machine

/-- The size field in arithmetic, wherever it lies wholly in the buffer. -/
theorem memLe32_eq_sizeAt {bytes : List Byte} {a : Nat} (h : a + 4 ≤ bytes.length) :
    memLe32 (memoryOf bytes) a = .ok (sizeAt bytes a) := by
  have h0 : a < bytes.length := by omega
  have h1 : a + 1 < bytes.length := by omega
  have h2 : a + 2 < bytes.length := by omega
  have h3 : a + 3 < bytes.length := by omega
  rw [memLe32_memoryOf bytes a h, le32_eq]
  simp [sizeAt, byteVal, List.getD_eq_getElem?_getD, h0, h1, h2, h3]

theorem sizeAt_lt (bytes : List Byte) (a : Nat) : sizeAt bytes a < 2 ^ 32 := by
  have h (k : Nat) : byteVal bytes k < 256 := (bytes.getD k 0).isLt
  have h0 := h a
  have h1 := h (a + 1)
  have h2 := h (a + 2)
  have h3 := h (a + 3)
  unfold sizeAt
  omega

/-- What the extractor can answer on an attached buffer; it never faults. -/
theorem extractData_memoryOf (lastWindow : Bool) (bytes : List Byte) :
    (noTag lastWindow bytes tagData ∧
      extractData lastWindow (memoryOf bytes) = .ok (.failed .chunkNotFound)) ∨
    ∃ o, firstTagAt lastWindow bytes tagData o ∧
      ((bytes.length < o + 8 ∧
          extractData lastWindow (memoryOf bytes) = .ok (.failed .truncatedPayload)) ∨
        (o + 8 ≤ bytes.length ∧ bytes.length < o + 8 + sizeAt bytes (o + 4) ∧
          extractData lastWindow (memoryOf bytes) = .ok (.failed .truncatedPayload)) ∨
        (o + 8 + sizeAt bytes (o + 4) ≤ bytes.length ∧
          extractData lastWindow (memoryOf bytes) =
            .ok (.payload (o + 8) (sizeAt bytes (o + 4))))) := by
  obtain ⟨r, hr, hsome, hnone⟩ := findChunk_memoryOf lastWindow bytes tagData
  cases r with
  | none => exact .inl ⟨hnone rfl, by simp [extractData, hr]⟩
  | some o =>
    refine .inr ⟨o, hsome o rfl, ?_⟩
    by_cases h8 : bytes.length < o + 8
    · exact .inl ⟨h8, by simp [extractData, hr, h8]⟩
    · have hs := memLe32_eq_sizeAt (bytes := bytes) (a := o + 4) (by omega)
      by_cases hp : bytes.length < o + 8 + sizeAt bytes (o + 4)
      · exact .inr (.inl ⟨by omega, hp, by simp [extractData, hr, h8, hs, hp]⟩)
      · exact .inr (.inr ⟨by omega, by simp [extractData, hr, h8, hs, hp]⟩)

end Sys2Proof.Machine
end

