-- ==== Sys2Proof/Laws/PerInstr.lean ====
section
/-! SUPPORT. One family of facts about every command as a term: the header of its byte form tells the
length of its byte form (spec/30_encoding.md rules R68 and R73). -/

namespace Sys2Proof.Laws.EncodeLength

open Sys2Proof Sys2Proof.Machine

/-- `commandLength`, on the byte form of `i` and whatever follows it, is the length of that byte form. -/
def Statement (i : Instr) : Prop :=
  i.wellFormed = true → ∀ rest, commandLength (encode i ++ rest) = some (encode i).length

theorem ulawEnc (x : Sample) : Statement (.ulawEnc x) := fun _ _ => rfl

theorem ulawEncSeq (xs : List Sample) : Statement (.ulawEncSeq xs) := by
  intro h rest
  have h' : xs.length < 2 ^ 32 := by simpa [Instr.wellFormed] using h
  have hf : formatOf (opcodeOf 0x02#8) = .cls := rfl
  simp only [encode, List.cons_append, List.append_assoc, commandLength, hf, takeCount_append h',
    Option.map_some, List.length_cons, List.length_append, leBytes_length,
    flatMap_sampleBytes_length, Option.some.injEq]
  omega

theorem chunkFind (id : ChunkId) : Statement (.chunkFind id) := fun _ _ => rfl

theorem dataExtract : Statement .dataExtract := fun _ _ => rfl

theorem pcmUnpack (bs : List Byte) : Statement (.pcmUnpack bs) := by
  intro h rest
  have h' : bs.length < 2 ^ 32 := by simpa [Instr.wellFormed] using h
  have hf : formatOf (opcodeOf 0x05#8) = .clb := rfl
  simp only [encode, List.cons_append, List.append_assoc, commandLength, hf, takeCount_append h',
    Option.map_some, List.length_cons, List.length_append, leBytes_length, Option.some.injEq]
  omega

theorem wavToUlaw : Statement .wavToUlaw := fun _ _ => rfl

theorem illegal (op : Byte) : Statement (.illegal op) := by
  intro h rest
  have hop : opcodeOf op = .illegal := (opcodeOf_illegal_iff op).2 h
  simp [encode, commandLength, hop, formatOf]

end Sys2Proof.Laws.EncodeLength
end

