-- ==== Sys2Proof/Laws/State.lean ====
section
/-! SUPPORT. One lemma per field per update of the state, and the command stream of each. -/

namespace Sys2Proof.Machine

@[simp] theorem State.answer_pending (s : State) (r : Response) :
    (s.answer r).pending = none := rfl

@[simp] theorem State.answer_resp (s : State) (r : Response) :
    (s.answer r).resp = some r := rfl

@[simp] theorem State.answer_buf (s : State) (r : Response) :
    (s.answer r).buf = s.buf := rfl

@[simp] theorem State.answer_stream (s : State) (r : Response) :
    (s.answer r).stream = s.stream := rfl

@[simp] theorem State.answer_moves (s : State) (r : Response) :
    (s.answer r).moves = s.moves := rfl

@[simp] theorem State.answer_taken (s : State) (r : Response) :
    (s.answer r).taken = s.taken := rfl

@[simp] theorem State.afterReset_pending (s : State) :
    (s.afterReset).pending = none := rfl

@[simp] theorem State.afterReset_resp (s : State) :
    (s.afterReset).resp = none := rfl

@[simp] theorem State.afterReset_buf (s : State) :
    (s.afterReset).buf = none := rfl

@[simp] theorem State.afterReset_stream (s : State) :
    (s.afterReset).stream = s.stream := rfl

@[simp] theorem State.afterReset_moves (s : State) :
    (s.afterReset).moves = s.moves := rfl

@[simp] theorem State.afterReset_taken (s : State) :
    (s.afterReset).taken = s.taken := rfl

@[simp] theorem State.attached_pending (s : State) (bytes : List Byte) :
    (s.attached bytes).pending = s.pending := rfl

@[simp] theorem State.attached_resp (s : State) (bytes : List Byte) :
    (s.attached bytes).resp = s.resp := rfl

@[simp] theorem State.attached_buf (s : State) (bytes : List Byte) :
    (s.attached bytes).buf = some (memoryOf bytes) := rfl

@[simp] theorem State.attached_stream (s : State) (bytes : List Byte) :
    (s.attached bytes).stream = s.stream := rfl

@[simp] theorem State.attached_moves (s : State) (bytes : List Byte) :
    (s.attached bytes).moves = s.moves := rfl

@[simp] theorem State.attached_taken (s : State) (bytes : List Byte) :
    (s.attached bytes).taken = s.taken := rfl

@[simp] theorem State.issued_pending (s : State) (i : Instr) (rest : List Byte) :
    (s.issued i rest).pending = some i := rfl

@[simp] theorem State.issued_resp (s : State) (i : Instr) (rest : List Byte) :
    (s.issued i rest).resp = none := rfl

@[simp] theorem State.issued_buf (s : State) (i : Instr) (rest : List Byte) :
    (s.issued i rest).buf = s.buf := rfl

@[simp] theorem State.issued_stream (s : State) (i : Instr) (rest : List Byte) :
    (s.issued i rest).stream = rest := rfl

@[simp] theorem State.issued_moves (s : State) (i : Instr) (rest : List Byte) :
    (s.issued i rest).moves = s.moves := rfl

@[simp] theorem State.issued_taken (s : State) (i : Instr) (rest : List Byte) :
    (s.issued i rest).taken = s.taken := rfl

@[simp] theorem State.afterTake_pending (s : State) (r : Response) :
    (s.afterTake r).pending = s.pending := rfl

@[simp] theorem State.afterTake_resp (s : State) (r : Response) :
    (s.afterTake r).resp = none := rfl

@[simp] theorem State.afterTake_buf (s : State) (r : Response) :
    (s.afterTake r).buf = s.buf := rfl

@[simp] theorem State.afterTake_stream (s : State) (r : Response) :
    (s.afterTake r).stream = s.stream := rfl

@[simp] theorem State.afterTake_moves (s : State) (r : Response) :
    (s.afterTake r).moves = s.moves := rfl

@[simp] theorem State.afterTake_taken (s : State) (r : Response) :
    (s.afterTake r).taken = s.taken ++ [r] := rfl

@[simp] theorem State.sent_pending (s : State) (bytes : List Byte) :
    (s.sent bytes).pending = s.pending := rfl

@[simp] theorem State.sent_resp (s : State) (bytes : List Byte) :
    (s.sent bytes).resp = s.resp := rfl

@[simp] theorem State.sent_buf (s : State) (bytes : List Byte) :
    (s.sent bytes).buf = s.buf := rfl

@[simp] theorem State.sent_stream (s : State) (bytes : List Byte) :
    (s.sent bytes).stream = s.stream ++ bytes := rfl

@[simp] theorem State.sent_moves (s : State) (bytes : List Byte) :
    (s.sent bytes).moves = s.moves := rfl

@[simp] theorem State.sent_taken (s : State) (bytes : List Byte) :
    (s.sent bytes).taken = s.taken := rfl

@[simp] theorem State.withMoves_pending (s : State) (ms : List Move) :
    (s.withMoves ms).pending = s.pending := rfl

@[simp] theorem State.withMoves_resp (s : State) (ms : List Move) :
    (s.withMoves ms).resp = s.resp := rfl

@[simp] theorem State.withMoves_buf (s : State) (ms : List Move) :
    (s.withMoves ms).buf = s.buf := rfl

@[simp] theorem State.withMoves_stream (s : State) (ms : List Move) :
    (s.withMoves ms).stream = s.stream := rfl

@[simp] theorem State.withMoves_moves (s : State) (ms : List Move) :
    (s.withMoves ms).moves = ms := rfl

@[simp] theorem State.withMoves_taken (s : State) (ms : List Move) :
    (s.withMoves ms).taken = s.taken := rfl

@[simp] theorem State.loaded_pending (s : State) (i : Instr) :
    (s.loaded i).pending = some i := rfl

@[simp] theorem State.loaded_resp (s : State) (i : Instr) :
    (s.loaded i).resp = none := rfl

@[simp] theorem State.loaded_buf (s : State) (i : Instr) :
    (s.loaded i).buf = bufferForIssue i s.buf := rfl

@[simp] theorem State.loaded_stream (s : State) (i : Instr) :
    (s.loaded i).stream = s.stream := rfl

@[simp] theorem State.loaded_moves (s : State) (i : Instr) :
    (s.loaded i).moves = .perform :: s.moves := rfl

@[simp] theorem State.loaded_taken (s : State) (i : Instr) :
    (s.loaded i).taken = s.taken := rfl

@[simp] theorem State.answer_commandStream (s : State) (r : Response) :
    (s.answer r).commandStream = s.commandStream := rfl

@[simp] theorem State.afterReset_commandStream (s : State) :
    s.afterReset.commandStream = s.commandStream := rfl

@[simp] theorem State.attached_commandStream (s : State) (bytes : List Byte) :
    (s.attached bytes).commandStream = s.commandStream := rfl

@[simp] theorem State.afterTake_commandStream (s : State) (r : Response) :
    (s.afterTake r).commandStream = s.commandStream := rfl

/-- What is still to come on the stream, once the head of the schedule is set aside. -/
theorem State.commandStream_cons {s : State} {mv : Move} {ms : List Move} (h : s.moves = mv :: ms) :
    s.commandStream = s.stream ++ (mv.streamBytes ++ ms.flatMap Move.streamBytes) := by
  simp [State.commandStream, h]

end Sys2Proof.Machine
end

