-- ==== Sys2Proof/Laws/Step.lean ====
section
/-! SUPPORT. One inversion lemma per shared operation, per command and for the step: everything that can
hold when it answers a next state (spec/10_state.md rules R26 and R27). -/

namespace Sys2Proof.Machine

variable {s t : State}

theorem respond_next {st : Status} {v : Option Result} (h : respond st v s = .next t) :
    t = s.answer ⟨st, v⟩ := by
  simpa [respond, eq_comm] using h

theorem raise_next {st : Status} (h : raise st s = .next t) : t = s.answer ⟨st, none⟩ :=
  respond_next h

/-- A buffer command that answers has a buffer, and its response is the one computed from it. -/
theorem onBuffer_next {k : Memory → Except Fault Response} (h : onBuffer k s = .next t) :
    ∃ m r, s.buf = some m ∧ k m = .ok r ∧ t = s.answer r := by
  unfold onBuffer at h
  split at h
  · cases h
  · rename_i m hm
    split at h
    · rename_i r hr
      cases h
      exact ⟨m, r, hm, hr, rfl⟩
    · cases h

theorem onBuffer_ok {k : Memory → Except Fault Response} {m : Memory} {r : Response}
    (hm : s.buf = some m) (hk : k m = .ok r) : onBuffer k s = .next (s.answer r) := by
  simp [onBuffer, hm, hk]

/-- Whatever the command and the configuration, a `perform` that answers has given one response and done
nothing else. -/
theorem execWith_next {c : Config} {i : Instr} (h : execWith c i s = .next t) : ∃ r, t = s.answer r := by
  cases i with
  | ulawEnc x => exact ⟨_, respond_next h⟩
  | ulawEncSeq xs => exact ⟨_, respond_next h⟩
  | chunkFind id =>
    obtain ⟨_, r, _, _, ht⟩ := onBuffer_next h
    exact ⟨r, ht⟩
  | dataExtract =>
    obtain ⟨_, r, _, _, ht⟩ := onBuffer_next h
    exact ⟨r, ht⟩
  | pcmUnpack bs => exact ⟨_, respond_next h⟩
  | wavToUlaw =>
    obtain ⟨_, r, _, _, ht⟩ := onBuffer_next h
    exact ⟨r, ht⟩
  | illegal op => exact ⟨_, raise_next h⟩

/-- `exec` is the `perform` of this hardware's configuration. -/
theorem execWith_hw : execWith hw = exec := by
  funext i s
  cases i <;> rfl

theorem exec_next {i : Instr} (h : exec i s = .next t) : ∃ r, t = s.answer r :=
  execWith_next (execWith_hw ▸ h)

/-- `step` is the step of this hardware's configuration. -/
theorem stepWith_hw : stepWith hw = step := by
  funext s
  rw [stepWith, execWith_hw, step]

variable {c : Config} {perf : Performer}

theorem doAttach_next {bytes : List Byte} (h : doAttach c bytes s = .next t) :
    s.pending = none ∧ bytes.length ≤ c.maxLen ∧ t = s.attached bytes := by
  unfold doAttach at h
  split at h
  · cases h
  · rename_i hp
    split at h
    · cases h
    · rename_i hl
      cases h
      exact ⟨by simpa using hp, by omega, rfl⟩

theorem doIssue_next (h : doIssue s = .next t) :
    s.pending = none ∧ ∃ i rest, decode s.stream = .whole i rest ∧
      (i.readsBuffer = true → s.buf ≠ none) ∧ t = s.issued i rest := by
  unfold doIssue at h
  split at h
  · cases h
  · rename_i hp
    refine ⟨by simpa using hp, ?_⟩
    split at h
    · cases h
    · cases h
    · rename_i i rest hd
      split at h
      · cases h
      · rename_i hb
        cases h
        exact ⟨i, rest, hd, fun h1 h2 => hb ⟨h1, h2⟩, rfl⟩

theorem doTake_next (h : doTake s = .next t) : ∃ r, s.resp = some r ∧ t = s.afterTake r := by
  unfold doTake at h
  split at h
  · cases h
  · rename_i r hr
    cases h
    exact ⟨r, hr, rfl⟩

theorem doPerform_next (h : doPerform perf s = .next t) :
    ∃ i, s.pending = some i ∧ perf i s = .next t := by
  unfold doPerform at h
  split at h
  · cases h
  · rename_i i hi
    exact ⟨i, hi, h⟩

theorem doNoMove_next (h : doNoMove perf s = .next t) :
    ∃ i, s.pending = some i ∧ perf i s = .next t := by
  unfold doNoMove at h
  split at h
  · cases h
  · rename_i i hi
    exact ⟨i, hi, h⟩

/-- Everything a step can do: it runs out of moves and performs, or makes one of the six moves. -/
theorem stepOf_next (h : stepOf c perf s = .next t) :
    (s.moves = [] ∧ ∃ i, s.pending = some i ∧ perf i s = .next t) ∨
    ∃ mv ms, s.moves = mv :: ms ∧
      ((mv = .reset ∧ t = (s.withMoves ms).afterReset) ∨
        (∃ bytes, mv = .attach bytes ∧ s.pending = none ∧ bytes.length ≤ c.maxLen ∧
          t = (s.withMoves ms).attached bytes) ∨
        (∃ bytes, mv = .send bytes ∧ t = (s.withMoves ms).sent bytes) ∨
        (mv = .issue ∧ s.pending = none ∧ ∃ i rest, decode s.stream = .whole i rest ∧
          (i.readsBuffer = true → s.buf ≠ none) ∧ t = (s.withMoves ms).issued i rest) ∨
        (mv = .take ∧ ∃ r, s.resp = some r ∧ t = (s.withMoves ms).afterTake r) ∨
        (mv = .perform ∧ ∃ i, s.pending = some i ∧ perf i (s.withMoves ms) = .next t)) := by
  unfold stepOf at h
  split at h
  · rename_i hm
    exact .inl ⟨hm, doNoMove_next h⟩
  · rename_i mv ms hm
    refine .inr ⟨mv, ms, hm, ?_⟩
    cases mv with
    | reset => cases h; exact .inl ⟨rfl, rfl⟩
    | attach bytes => exact .inr (.inl ⟨bytes, rfl, doAttach_next h⟩)
    | send bytes => cases h; exact .inr (.inr (.inl ⟨bytes, rfl, rfl⟩))
    | issue => exact .inr (.inr (.inr (.inl ⟨rfl, doIssue_next h⟩)))
    | take => exact .inr (.inr (.inr (.inr (.inl ⟨rfl, doTake_next h⟩))))
    | perform => exact .inr (.inr (.inr (.inr (.inr ⟨rfl, doPerform_next h⟩))))

/-- The step of this hardware, to which `stepOf_next` applies. -/
theorem step_eq_stepOf (s : State) : step s = stepOf hw exec s := rfl

/-- `runSteps` is the host's run of this machine. -/
theorem runSteps_eq_core_run (n : Nat) (s : State) : runSteps n s = core.run n s := by
  induction n generalizing s with
  | zero => rfl
  | succ n ih =>
    have hc : core.step s = step s := rfl
    cases hx : step s with
    | next t =>
      simp only [runSteps, Host.Core.run, hx, hc.trans hx]
      exact ih t
    | fault f =>
      simp only [runSteps, Host.Core.run, hx, hc.trans hx]
      rfl
    | refused r =>
      simp only [runSteps, Host.Core.run, hx, hc.trans hx]
      rfl

/-- A run of `n` steps, then one of `k`. -/
theorem runSteps_add {n : Nat} {s t : State} (h : runSteps n s = .next t) (k : Nat) :
    runSteps (n + k) s = runSteps k t := by
  induction n generalizing s with
  | zero =>
    cases h
    rw [Nat.zero_add]
  | succ n ih =>
    rw [show n + 1 + k = n + k + 1 by omega]
    simp only [runSteps] at h ⊢
    cases hs : step s with
    | next s' => exact ih (by simpa [hs] using h)
    | fault f => simp [hs] at h
    | refused r => simp [hs] at h

end Sys2Proof.Machine
end

