-- ==== Sys2Proof/Machine/Asm.lean ====
section
/-! DEFINITION. The assembler syntax in which the spec writes commands and Host moves
(spec/30_encoding.md rules R76 and R77). It is text for a reader; no step reads it. -/

namespace Sys2Proof.Machine

/-- One hexadecimal digit. -/
def hexDigit (n : Nat) : String :=
  match n with
  | 10 => "A" | 11 => "B" | 12 => "C" | 13 => "D" | 14 => "E" | 15 => "F"
  | k => toString k

/-- A byte as two hexadecimal digits. -/
def hexByte (b : Byte) : String := hexDigit (b.toNat / 16) ++ hexDigit (b.toNat % 16)

/-- List elements between brackets, with commas between them (rule R76). -/
def bracketed (xs : List String) : String := "[" ++ ", ".intercalate xs ++ "]"

/-- A sample in decimal (rule R76). -/
def asmSample (x : Sample) : String := toString x.toInt

/-- A command in the syntax of rule R76: samples in decimal, the id as its four bytes, list bytes in
hexadecimal as the programs of spec/95_test_vectors.md write them. That syntax has no mnemonic for a
reserved byte; it is written as the raw byte those programs use (DESIGN CHOICE, assumption
log 16). -/
def asmCommand : Instr → String
  | .ulawEnc x => "ULAW_ENC " ++ asmSample x
  | .ulawEncSeq xs => "ULAW_ENC_SEQ " ++ bracketed (xs.map asmSample)
  | .chunkFind id => "CHUNK_FIND " ++ ",".intercalate (id.toList.map fun b => "0x" ++ hexByte b)
  | .dataExtract => "DATA_EXTRACT"
  | .pcmUnpack bs => "PCM_UNPACK " ++ bracketed (bs.map hexByte)
  | .wavToUlaw => "WAV_TO_ULAW"
  | .illegal op => ".byte 0x" ++ hexByte op

/-- The Host's `attach` in the syntax of rule R76. -/
def asmAttach (bytes : List Byte) : String := "ATTACH " ++ bracketed (bytes.map hexByte)

end Sys2Proof.Machine
end

