-- ==== Sys2Proof/Tests/Slice0.lean ====
section
/-! SUPPORT. The model's own tests, on the vectors of spec/95_test_vectors.md, and, for every statement
that has hypotheses, concrete values that meet them. -/

namespace Sys2Proof.Tests

open Sys2Proof Sys2Proof.Machine

/-! ## Helpers: buffers of spec/95_test_vectors.md §2.6 and §2.7 and small states -/

/-- The 12-byte header that the vectors share (its size byte is never read, rule R49). -/
def header : List Byte :=
  [0x52#8, 0x49#8, 0x46#8, 0x46#8, 0x10#8, 0x00#8, 0x00#8, 0x00#8, 0x57#8, 0x41#8, 0x56#8, 0x45#8]

/-- The four bytes of `"data"`. -/
def dataBytes : List Byte := [0x64#8, 0x61#8, 0x74#8, 0x61#8]

/-- B10, the first ten bytes of S1. -/
def b10 : List Byte := header.take 10

/-- S1, the end-to-end buffer. -/
def s1 : List Byte := header ++ dataBytes ++ [0x04#8, 0#8, 0#8, 0#8, 0#8, 0#8, 0#8, 0#8]

/-- B16, the tag at `L − 4`. -/
def b16 : List Byte := header ++ dataBytes

/-- B17, the shortest buffer whose tag the default scan can find. -/
def b17 : List Byte := b16 ++ [0#8]

/-- X3, a data chunk of size 0. -/
def x3 : List Byte := b16 ++ [0#8, 0#8, 0#8, 0#8]

/-- X4, one payload byte short. -/
def x4 : List Byte := b16 ++ [0x05#8, 0#8, 0#8, 0#8, 0x01#8, 0#8, 0x02#8, 0#8]

/-- X8, declared size 0xFFFFFFFF. -/
def x8 : List Byte := b16 ++ [0xFF#8, 0xFF#8, 0xFF#8, 0xFF#8, 0#8, 0#8, 0#8, 0#8]

/-- X9, an odd payload. -/
def x9 : List Byte := b16 ++ [0x03#8, 0#8, 0#8, 0#8, 0x10#8, 0x27#8, 0x99#8]

/-- F7, a false match at 20. -/
def f7 : List Byte :=
  header ++ [0x4C#8, 0x49#8, 0x53#8, 0x54#8, 0x04#8, 0#8, 0#8, 0#8] ++ dataBytes ++ dataBytes ++
    [0x04#8, 0#8, 0#8, 0#8, 0xE8#8, 0x03#8, 0x18#8, 0xFC#8]

/-- F10, the tag at `L − 5`. -/
def f10 : List Byte := header ++ [0x78#8] ++ dataBytes ++ [0x79#8]

/-- A state with a buffer attached. -/
def withBuf (bytes : List Byte) : State := { State.reset with buf := some (memoryOf bytes) }

/-- A state with a buffer attached and a command pending. -/
def withPending (bytes : List Byte) (i : Instr) : State :=
  { State.reset with buf := some (memoryOf bytes), pending := some i }

/-- A state with the given moves to come. -/
def withMove (ms : List Move) : State := { State.reset with moves := ms }

/-- The response bytes of an outcome. -/
def bytesOf : Host.Outcome State Fault Refusal → Option (List Byte)
  | .next t => t.resp.map responseBytes
  | .fault _ => none
  | .refused _ => none

/-- The refusal of an outcome. -/
def refusalOf : Host.Outcome State Fault Refusal → Option Refusal
  | .next _ => none
  | .fault _ => none
  | .refused r => some r

/-- The fault of an outcome. -/
def faultOf : Host.Outcome State Fault Refusal → Option Fault
  | .next _ => none
  | .fault f => some f
  | .refused _ => none

/-- A part of the state an outcome reaches. -/
def stateOf : Host.Outcome State Fault Refusal → Option State
  | .next t => some t
  | .fault _ => none
  | .refused _ => none

/-! ## WellFormed: an ill-formed term for each check -/

/-- Rule R71: 0x01 is no reserved byte. -/
theorem test_illegal_of_mapped_byte_ill_formed : (Instr.illegal 0x01#8).wellFormed = false := by decide

theorem test_illegal_0x06_ill_formed : (Instr.illegal 0x06#8).wellFormed = false := by decide

/-- Rule R69: 2^32 samples do not fit the count field. -/
theorem test_too_many_samples_ill_formed :
    (Instr.ulawEncSeq (List.replicate (2 ^ 32) 0#16)).wellFormed = false := by
  simp only [Instr.wellFormed, List.length_replicate, Nat.lt_irrefl, decide_false]

/-- Rule R69: 2^32 bytes do not fit the count field. -/
theorem test_too_many_bytes_ill_formed :
    (Instr.pcmUnpack (List.replicate (2 ^ 32) 0#8)).wellFormed = false := by
  simp only [Instr.wellFormed, List.length_replicate, Nat.lt_irrefl, decide_false]

theorem test_reserved_ends_well_formed :
    (Instr.illegal 0x00#8).wellFormed = true ∧ (Instr.illegal 0x07#8).wellFormed = true ∧
      (Instr.illegal 0xFF#8).wellFormed = true := by decide

/-! ## Decoding: words written out from rules R68 to R71 -/

/-- K3. -/
theorem test_decode_ulawEnc :
    decode [0x01#8, 0x00#8, 0x80#8] = .whole (.ulawEnc (BitVec.ofInt 16 (-32768))) [] := by decide

/-- E5: 123, 124, −123, −124. -/
theorem test_decode_ulawEncSeq :
    decode [0x02#8, 0x04#8, 0x00#8, 0x00#8, 0x00#8, 0x7B#8, 0x00#8, 0x7C#8, 0x00#8, 0x85#8, 0xFF#8,
        0x84#8, 0xFF#8] =
      .whole (.ulawEncSeq [BitVec.ofInt 16 123, BitVec.ofInt 16 124, BitVec.ofInt 16 (-123),
        BitVec.ofInt 16 (-124)]) [] := by decide

/-- F6b: `"fmt "`. -/
theorem test_decode_chunkFind :
    decode [0x03#8, 0x66#8, 0x6D#8, 0x74#8, 0x20#8] = .whole (.chunkFind tagFmt) [] := by decide

theorem test_decode_dataExtract : decode [0x04#8, 0x06#8] = .whole .dataExtract [0x06#8] := by decide

/-- U3. -/
theorem test_decode_pcmUnpack :
    decode [0x05#8, 0x05#8, 0#8, 0#8, 0#8, 0x01#8, 0#8, 0xFF#8, 0xFF#8, 0x07#8] =
      .whole (.pcmUnpack [0x01#8, 0#8, 0xFF#8, 0xFF#8, 0x07#8]) [] := by decide

theorem test_decode_wavToUlaw : decode [0x06#8] = .whole .wavToUlaw [] := by decide

/-- K20: the byte after a reserved byte starts a new command. -/
theorem test_decode_illegal :
    decode [0x07#8, 0x01#8, 0#8, 0#8] = .whole (.illegal 0x07#8) [0x01#8, 0#8, 0#8] := by decide

/-- K15, K16 and K19. -/
theorem test_decode_incomplete :
    decode [0x01#8, 0x00#8] = .incomplete ∧
      decode [0x02#8, 0x03#8, 0#8, 0#8, 0#8, 0x01#8, 0#8] = .incomplete ∧ decode [] = .empty := by decide

/-- A count of 2^32 − 1 with no item after it: the decoder waits. -/
theorem test_decode_largest_count :
    decode [0x05#8, 0xFF#8, 0xFF#8, 0xFF#8, 0xFF#8] = .incomplete := by decide

/-- Rule R77. -/
theorem test_encode_findData :
    encode findData = [0x03#8, 0x64#8, 0x61#8, 0x74#8, 0x61#8] := by decide

/-- The table's words, operand bytes above the row's bits zero. -/
theorem test_decodeTableWord :
    decodeTableWord 24 0x800001 = some (.ulawEnc 0x8000#16) ∧
    decodeTableWord 8 0x02 = some (.ulawEncSeq []) ∧
    decodeTableWord 40 0x6174616403 = some (.chunkFind tagData) ∧
    decodeTableWord 8 0x04 = some .dataExtract ∧
    decodeTableWord 40 0x0205 = some (.pcmUnpack [0#8, 0#8]) ∧
    decodeTableWord 8 0x06 = some .wavToUlaw ∧
    decodeTableWord 8 0xFF = some (.illegal 0xFF#8) := by decide

/-- The very next step runs the word: here `ULAW_ENC 32635` from reset (KV2). -/
theorem test_withFetchWord_ulawEnc :
    bytesOf (step (State.reset.withFetchWord 24 0x7F7B01)) = some [0x00#8, 0x80#8] := by decide

/-- A buffer command from reset runs on the empty buffer (E0, vector F14). -/
theorem test_withFetchWord_chunkFind :
    bytesOf (step (State.reset.withFetchWord 40 0x6174616403)) =
      some (0x00#8 :: List.replicate 8 0xFF#8) := by decide

/-! ## The commands -/

/-- §2.1: KV2, KV3, −32768, and the boundary of segments 0 and 1. -/
theorem test_enc1_vectors :
    [32635, -32635, -32768, 123, 124, -124, 31611, 31612, 1000, -10000].map
        (fun v => enc1 3 (BitVec.ofInt 16 v)) =
      [0x80#8, 0x00#8, 0x00#8, 0xF0#8, 0xEF#8, 0x6F#8, 0x81#8, 0x80#8, 0xCE#8, 0x1C#8] := by decide

/-- §2.1, last column: segment 0 at `SEG0_SHIFT = 4`. -/
theorem test_enc1_literal_step5 :
    [0, 4, 11, 12, 123, 124, -12].map (fun v => enc1 4 (BitVec.ofInt 16 v)) =
      [0xF7#8, 0xF7#8, 0xF7#8, 0xF6#8, 0xF0#8, 0xEF#8, 0x76#8] := by decide

/-- K2, in every state. -/
theorem test_ulawEnc :
    bytesOf (exec (.ulawEnc 0xFFFF#16) State.reset) = some [0x00#8, 0x7F#8] := by decide

/-- E3. -/
theorem test_ulawEncSeq :
    bytesOf (exec (.ulawEncSeq [0#16, 1000#16, BitVec.ofInt 16 (-1000), 32767#16]) State.reset) =
      some [0x00#8, 0x04#8, 0#8, 0#8, 0#8, 0xFF#8, 0xCE#8, 0x4E#8, 0x80#8] := by decide

/-- F10: the highest offset the default scan returns. -/
theorem test_chunkFind_last_candidate :
    bytesOf (exec findData (withBuf f10)) =
      some [0x00#8, 0x0D#8, 0#8, 0#8, 0#8, 0#8, 0#8, 0#8, 0#8] := by decide

/-- F3 and its "last" column. -/
theorem test_chunkFind_last_window :
    bytesOf (exec findData (withBuf b16)) = some (0x00#8 :: List.replicate 8 0xFF#8) ∧
      (findChunk true (memoryOf b16) tagData).toOption = some (some 12) := by decide

/-- X9. -/
theorem test_dataExtract_ok :
    bytesOf (exec .dataExtract (withBuf x9)) =
      some [0x00#8, 0x14#8, 0#8, 0#8, 0#8, 0#8, 0#8, 0#8, 0#8, 0x03#8, 0#8, 0#8, 0#8] := by decide

/-- X11, X6, X4 and X8. -/
theorem test_dataExtract_errors :
    [b16, b17, x4, x8].map (fun b => bytesOf (exec .dataExtract (withBuf b))) =
      [some [0x01#8], some [0x02#8], some [0x02#8], some [0x02#8]] := by decide

/-- U4 and U2. -/
theorem test_pcmUnpack :
    bytesOf (exec (.pcmUnpack [0#8, 0x80#8, 0xFF#8, 0x7F#8, 0x07#8]) State.reset) =
        some [0x00#8, 0x02#8, 0#8, 0#8, 0#8, 0#8, 0x80#8, 0xFF#8, 0x7F#8] ∧
      bytesOf (exec (.pcmUnpack [0x01#8]) State.reset) = some [0x00#8, 0#8, 0#8, 0#8, 0#8] := by decide

/-- W4: an odd payload. -/
theorem test_wavToUlaw_odd :
    bytesOf (exec .wavToUlaw (withBuf x9)) = some [0x00#8, 0x01#8, 0#8, 0#8, 0#8, 0x9C#8] := by decide

/-- W6, W5 and W1. -/
theorem test_wavToUlaw :
    [f7, b10, s1].map (fun b => bytesOf (exec .wavToUlaw (withBuf b))) =
      [some [0x02#8], some [0x01#8], some [0x00#8, 0x02#8, 0#8, 0#8, 0#8, 0xFF#8, 0xFF#8]] := by decide

/-- K13. -/
theorem test_illegal : bytesOf (exec (.illegal 0x07#8) State.reset) = some [0x03#8] := by decide

/-! ## Moves -/

/-- P4, step 2: the issue of `FINDDATA` with no buffer attached is refused. -/
theorem test_issue_needs_buffer :
    refusalOf (step { State.reset with moves := [.issue], stream := encode findData }) =
      some .noBufferAttached := by decide

/-- Rule R231: a reset abandons the pending command. -/
theorem test_reset_abandons :
    stateOf (step { withPending s1 .dataExtract with moves := [.reset] }) = some State.reset := by decide

/-- Rule R235: an issue drops the response not taken. -/
theorem test_issue_drops_response :
    (stateOf (step { State.reset with
      moves := [.issue], stream := [0x07#8], resp := some ⟨.ok, some (.code 0#8)⟩ })).map
        (fun t => (t.pending, t.resp, t.stream)) = some (some (.illegal 0x07#8), none, []) := by decide

/-- Rule R41: a read outside the buffer faults, here on cells that no `attach` makes. -/
theorem test_read_of_missing_address_faults :
    (memRead [(0, 0x52#8), (2, 0x46#8)] 1).toOption = none ∧
      (memRead (memoryOf b10) 9).toOption = some 0x41#8 ∧
      (memRead (memoryOf b10) 10).toOption = none := by decide

/-- Rule R76. -/
theorem test_asm :
    asmCommand findData = "CHUNK_FIND 0x64,0x61,0x74,0x61" ∧
      asmCommand (.ulawEncSeq [0#16, 0xFFFF#16]) = "ULAW_ENC_SEQ [0, -1]" := by decide

/-- The reading of response bytes, on X2 and F3. -/
theorem test_responseOfBytes :
    responseOfBytes .dataExtract [0x00#8, 0x14#8, 0#8, 0#8, 0#8, 0#8, 0#8, 0#8, 0#8, 0x04#8, 0#8, 0#8, 0#8] =
        some ⟨.ok, some (.extent 20 4)⟩ ∧
      responseOfBytes findData (0x00#8 :: List.replicate 8 0xFF#8) = some ⟨.ok, some (.offset none)⟩ ∧
      responseOfBytes .wavToUlaw [0x02#8] = some ⟨.truncatedPayload, none⟩ := by decide

/-! ## The end of a run, and the configuration -/

/-- Rule R241: a run with a whole command still to send, or one whose partial command a later send
completes, is not over; a partial command that nothing completes does not keep a run from being over. -/
theorem test_over :
    ¬ (withMove [.send [0x01#8, 0#8, 0#8], .issue, .perform, .take]).over ∧
    ¬ ({ withMove [.send [0#8, 0#8], .issue, .perform] with stream := [0x01#8] } : State).over ∧
    ({ withMove [.send [0#8]] with stream := [0x01#8] } : State).over :=
  ⟨fun h => h.2 (.ulawEnc 0#16) [] (by decide), fun h => h.2 (.ulawEnc 0#16) [] (by decide),
    rfl, by intro i rest h; cases h⟩

/-- KV1 and F3 at `SEG0_SHIFT = 4` and `SCAN_LAST_WINDOW = true`. -/
theorem test_other_configuration :
    bytesOf (stepWith ⟨4, true, 17, 1⟩ (withPending b16 (.ulawEnc 0#16))) = some [0x00#8, 0xF7#8] ∧
    bytesOf (stepWith ⟨4, true, 17, 1⟩ (withPending b16 findData)) =
      some [0x00#8, 0x0C#8, 0#8, 0#8, 0#8, 0#8, 0#8, 0#8, 0#8] ∧
    refusalOf (stepWith ⟨4, true, 17, 1⟩ (withMove [.attach (List.replicate 18 0#8)])) =
      some .bufferTooLong := by decide

end Sys2Proof.Tests
end

