-- ==== Sys2Proof/Tests/Witnesses.lean ====
section
/-! SUPPORT. For every statement of Certificates/Slice0/Obligations.lean that has hypotheses, a named
theorem with concrete values that meet all of them together, one for each clause at a boundary. -/

namespace Sys2Proof.Tests

open Sys2Proof Sys2Proof.Machine

/-! ## Facts about the test buffers -/

/-- On a short buffer no candidate exists. -/
theorem noTag_of_short {bytes : List Byte} {id : ChunkId} (h : bytes.length ≤ 16) :
    noTag false bytes id := by
  rintro j ⟨h1, h2 | ⟨h2, -⟩⟩
  · omega
  · cases h2

/-- A tag at 12 that is a candidate is the first. -/
theorem first_at_12 {lastWindow : Bool} {bytes : List Byte} {id : ChunkId}
    (hc : candidateAt lastWindow bytes.length 12) (ht : tagAt bytes id 12) :
    firstTagAt lastWindow bytes id 12 :=
  ⟨hc, ht, fun j hj hcj => absurd hcj.1 (by omega)⟩

theorem first_s1 : firstTagAt false s1 tagData 12 :=
  first_at_12 ⟨by decide, .inl (by decide)⟩ (by unfold tagAt; decide)

theorem first_b17 : firstTagAt false b17 tagData 12 :=
  first_at_12 ⟨by decide, .inl (by decide)⟩ (by unfold tagAt; decide)

theorem first_x3 : firstTagAt false x3 tagData 12 :=
  first_at_12 ⟨by decide, .inl (by decide)⟩ (by unfold tagAt; decide)

theorem first_x4 : firstTagAt false x4 tagData 12 :=
  first_at_12 ⟨by decide, .inl (by decide)⟩ (by unfold tagAt; decide)

theorem first_x8 : firstTagAt false x8 tagData 12 :=
  first_at_12 ⟨by decide, .inl (by decide)⟩ (by unfold tagAt; decide)

/-- A sound state with a buffer of at most 17 bytes: it fits whatever `MAX_LEN` is. -/
theorem soundFor_withPending {c : Config} {bytes : List Byte} {i : Instr} (hc : 17 ≤ c.maxLen)
    (hb : bytes.length ≤ 17) (hi : i.wellFormed = true) : (withPending bytes i).InvFor c := by
  refine ⟨?_, ?_, ?_, fun _ => rfl, ?_, ?_⟩
  · rintro m hm
    cases hm
    exact ⟨memoryOf_wf bytes, by rw [memoryOf_length]; exact hb.trans hc⟩
  · rintro j hj
    cases hj
    exact hi
  · intro j _ _ h
    cases h
  · intro r hr
    cases hr
  · intro r hr
    cases hr

theorem sound_withPending {bytes : List Byte} {i : Instr} (hb : bytes.length ≤ 17)
    (hi : i.wellFormed = true) : (withPending bytes i).Inv :=
  soundFor_withPending hw_maxLen_ge hb hi

theorem sound_withBuf {bytes : List Byte} (hb : bytes.length ≤ 17) : (withBuf bytes).Inv :=
  have h := sound_withPending (i := .dataExtract) hb rfl
  ⟨h.buffer, fun _ hj => (nomatch hj), fun _ hj => (nomatch hj), fun _ => rfl, h.respForm, h.takenForm⟩

/-! ## Moves -/

theorem witness_ResetMoveEmptiesTheBlock :
    ∃ (s : State) (ms : List Move), s.moves = .reset :: ms ∧ s.pending ≠ none ∧ s.buf ≠ none :=
  ⟨{ withPending s1 .dataExtract with moves := [.reset, .take] }, [.take], rfl, by decide, by decide⟩

theorem witness_ResetMoveLeavesTheHostSide :
    ∃ (s t : State), s.moves = [.reset, .take] ∧ step s = .next t ∧ s.stream = [0x01#8] :=
  ⟨{ withPending s1 .dataExtract with moves := [.reset, .take], stream := [0x01#8] }, _, rfl, rfl, rfl⟩

theorem witness_PerformStepRunsPendingCommand :
    (∃ (s : State) (ms : List Move) (i : Instr), s.pending = some i ∧ s.moves = .perform :: ms) ∧
      ∃ (s : State) (i : Instr), s.pending = some i ∧ s.moves = [] :=
  ⟨⟨{ withPending s1 .dataExtract with moves := [.perform] }, [], .dataExtract, rfl, rfl⟩,
    ⟨withPending s1 .dataExtract, .dataExtract, rfl, rfl⟩⟩

theorem witness_StreamHeadIsDecodedAndPerformed :
    ∃ (s : State) (ms : List Move) (i : Instr) (rest : List Byte), s.moves = .issue :: .perform :: ms ∧ s.pending = none ∧
      decode s.stream = .whole i rest ∧ i.readsBuffer = true ∧ s.buf ≠ none :=
  ⟨{ withBuf s1 with moves := [.issue, .perform, .take], stream := [0x04#8, 0x01#8] }, [.take],
    .dataExtract, [0x01#8], rfl, rfl, by decide, rfl, by decide⟩

theorem witness_BufferCommandsNeedAnAttachedBuffer :
    (∃ (s : State) (ms : List Move) (rest : List Byte), s.moves = .issue :: ms ∧ s.pending = none ∧
      decode s.stream = .whole (.chunkFind tagData) rest ∧ s.buf = none) ∧
    (∃ (s : State) (ms : List Move) (rest : List Byte), s.moves = .issue :: ms ∧ s.pending = none ∧
      decode s.stream = .whole (.ulawEnc 0x0000#16) rest ∧ s.buf = none) :=
  ⟨⟨{ withMove [.issue] with stream := [0x03#8, 0x64#8, 0x61#8, 0x74#8, 0x61#8] }, [], [], rfl, rfl,
      by decide, rfl⟩,
    ⟨{ withMove [.issue] with stream := [0x01#8, 0x00#8, 0x00#8] }, [], [], rfl, rfl, by decide, rfl⟩⟩

theorem witness_DisabledMovesAreRefused :
    (∃ (s : State) (ms : List Move), s.moves = .attach [] :: ms ∧ s.pending ≠ none) ∧
    (∃ (s : State) (ms : List Move) (bytes : List Byte), s.moves = .attach bytes :: ms ∧ s.pending = none ∧
      bytes.length = hw.maxLen + 1 ∧ hw.maxLen < bytes.length) ∧
    (∃ (s : State) (ms : List Move), s.moves = .issue :: ms ∧ s.pending ≠ none) ∧
    (∃ (s : State) (ms : List Move), s.moves = .issue :: ms ∧ s.pending = none ∧ s.stream = []) ∧
    (∃ (s : State) (ms : List Move), s.moves = .issue :: ms ∧ s.pending = none ∧ decode s.stream = .incomplete) ∧
    (∃ (s : State) (ms : List Move), s.moves = .take :: ms ∧ s.resp = none) ∧
    (∃ (s : State) (ms : List Move), s.moves = .perform :: ms ∧ s.pending = none) :=
  ⟨⟨{ withPending s1 .wavToUlaw with moves := [.attach []] }, [], rfl, by decide⟩,
    ⟨withMove [.attach (List.replicate (hw.maxLen + 1) 0#8)], [], _, rfl, rfl, List.length_replicate,
      by rw [List.length_replicate]; exact Nat.lt_succ_self _⟩,
    ⟨{ withPending s1 .wavToUlaw with moves := [.issue] }, [], rfl, by decide⟩,
    ⟨withMove [.issue], [], rfl, rfl, rfl⟩,
    ⟨{ withMove [.issue] with stream := [0x01#8, 0x00#8] }, [], rfl, rfl, by decide⟩,
    ⟨withMove [.take], [], rfl, rfl⟩, ⟨withMove [.perform], [], rfl, rfl⟩⟩

theorem witness_AttachSetsTheBuffer :
    (∃ (s : State) (ms : List Move), s.moves = .attach b17 :: ms ∧ s.pending = none ∧ b17.length ≤ hw.maxLen) ∧
    (∃ (s : State) (ms : List Move) (bytes : List Byte), s.moves = .attach bytes :: ms ∧ s.pending = none ∧ bytes.length = hw.maxLen) :=
  ⟨⟨withMove [.attach b17], [], rfl, rfl, (by decide : b17.length ≤ 17).trans hw_maxLen_ge⟩,
    ⟨withMove [.attach (List.replicate hw.maxLen 0#8)], [], _, rfl, rfl, List.length_replicate⟩⟩

theorem witness_TakeReturnsTheResponse :
    ∃ (s : State) (ms : List Move) (r : Response), s.moves = .take :: ms ∧ s.resp = some r :=
  ⟨{ withMove [.take] with resp := some ⟨.illegalCommand, none⟩ }, [], _, rfl, rfl⟩

theorem witness_CanonicalBuffersAreAttachedByteLists :
    (memoryOf s1).wf ∧ ¬ Memory.wf [(1, 0#8)] ∧ ∃ a b : List Byte, memoryOf a = memoryOf b ∧ a ≠ [] :=
  ⟨memoryOf_wf s1, by decide, s1, s1, rfl, by decide⟩

/-! ## Encoding -/

theorem witness_DecodeOfEncodeIsTheCommand :
    (Instr.ulawEncSeq []).wellFormed = true ∧ (Instr.pcmUnpack [0xFF#8]).wellFormed = true ∧
      (Instr.illegal 0x07#8).wellFormed = true := by decide

theorem witness_DecoderHasThreeResults :
    decode [0x03#8, 0x64#8] = .incomplete ∧
      { withMove [.issue] with stream := [0x03#8, 0x64#8] }.moves = [.issue] := by decide

theorem witness_DecodedBytesAreTheEncoding :
    decode [0x02#8, 0x00#8, 0x00#8, 0x00#8, 0x00#8, 0xFF#8] = .whole (.ulawEncSeq []) [0xFF#8] := by
  decide

theorem witness_LengthFollowsFromTheHeader :
    decode [0x05#8, 0x01#8, 0x00#8, 0x00#8, 0x00#8, 0xAA#8] = .whole (.pcmUnpack [0xAA#8]) [] ∧
      decode [0x06#8] = .whole .wavToUlaw [] ∧
      formatOf (opcodeOf ([0x06#8].getD 0 0)) = .c0 ∧
      formatOf (opcodeOf ([0x05#8, 0x01#8, 0x00#8, 0x00#8, 0x00#8, 0xAA#8].getD 0 0)) = .clb := by decide

theorem witness_ReservedBytesAreIllegalCommands :
    ((0x00#8 : Byte) = 0x00#8 ∨ 0x07 ≤ (0x00#8 : Byte).toNat) ∧
      ((0x07#8 : Byte) = 0x00#8 ∨ 0x07 ≤ (0x07#8 : Byte).toNat) ∧
      ((0xFF#8 : Byte) = 0x00#8 ∨ 0x07 ≤ (0xFF#8 : Byte).toNat) := by decide

/-! ## The encoder -/

theorem witness_UlawEncSeqRespondsWithOneBytePerSample :
    ([5#16] : List Sample)[0]? = some 5#16 := rfl

theorem witness_EncoderMatchesItsClosedForm :
    ((3 = 3 ∨ 3 = 4) ∧ enc1 3 0xFFFF#16 = 0x7F#8) ∧ ((4 = 3 ∨ 4 = 4) ∧ enc1 4 0xFFFF#16 = 0x77#8) := by
  decide

theorem witness_SegmentIsTheHighestBitPosition :
    (132 ≤ 132 ∧ 132 ≤ 32767 ∧ segment 132 = 0) ∧ (132 ≤ 32767 ∧ segment 32767 = 7) := by decide

theorem witness_MantissaIntervals :
    (132 ≤ 255 ∧ 255 ≤ 32767 ∧ segment 255 = 0 ∧ mantissa 3 0 255 = 15 ∧ mantissa 4 0 255 = 15) ∧
      (segment 256 = 1 ∧ mantissa 3 1 256 = 0) ∧ (segment 132 = 0 ∧ mantissa 4 0 132 = 8) := by decide

theorem witness_OutputByteFields :
    (4 = 3 ∨ 4 = 4) ∧ (enc1 4 0x8000#16).toNat / 128 = 0 ∧ (enc1 4 0x0000#16).toNat % 16 = 7 := by
  decide

theorem witness_CompressionIsMonotonic :
    ((0x007B#16).toInt < 0 ↔ (0x007C#16).toInt < 0) ∧
      (0x007B#16).toInt.natAbs < (0x007C#16).toInt.natAbs ∧
      ((0x8001#16).toInt < 0 ↔ (0x8000#16).toInt < 0) ∧
      (0x8001#16).toInt.natAbs < (0x8000#16).toInt.natAbs := by decide

theorem witness_SignSymmetry :
    (1 ≤ (0x0001#16).toInt ∧ (0xFFFF#16).toInt = -(0x0001#16).toInt) ∧
      (1 ≤ (0x7FFF#16).toInt ∧ (0x8001#16).toInt = -(0x7FFF#16).toInt) ∧
      0 ≤ (0x0000#16).toInt ∧ (0xFFFF#16).toInt < 0 := by decide

theorem witness_ClipSaturatesTheOutput :
    31612 ≤ (0x7B7C#16).toInt ∧ (0x8484#16).toInt ≤ -31612 := by decide

theorem witness_IntermediateValuesFitTheirWidths :
    (4 = 3 ∨ 4 = 4) ∧ magnitude 0x8000#16 = 32768 ∧ biased (magnitude 0x8000#16) = 32767 ∧
      ulawCode 4 0x8000#16 = 255 := by decide

theorem witness_EncoderLanesCannotBeObserved :
    1 ≤ 1 ∧ encodeInLanes 3 2 3 [0#16, 1#16, 2#16] = [0#16, 1#16, 2#16].map (enc1 3) := by decide

/-! ## The chunk locator -/

theorem witness_ChunkFindReturnsTheFirstMatch :
    (withBuf f10).buf = some (memoryOf f10) ∧ firstTagAt false f10 tagData 13 ∧
      noTag false b16 tagData := by
  refine ⟨rfl, ⟨⟨by decide, .inl (by decide)⟩, by unfold tagAt; decide, ?_⟩, noTag_of_short (by decide)⟩
  intro j hj hc
  obtain rfl : j = 12 := by
    have := hc.1
    omega
  unfold tagAt
  decide

theorem witness_ScanFindsTheFirstMatchInBothConfigurations :
    firstTagAt true b16 tagData 12 ∧ noTag false b16 tagData ∧ firstTagAt false b17 tagData 12 :=
  ⟨first_at_12 ⟨by decide, .inr ⟨rfl, by decide⟩⟩ (by unfold tagAt; decide),
    noTag_of_short (by decide), first_b17⟩

theorem witness_ShortBuffersAreNotRead :
    (memoryOf b16).length ≤ 16 ∧ (memoryOf (b16.take 15)).length ≤ 15 ∧
      ([(99, 0#8)] : Memory).length ≤ 15 := by decide

theorem witness_ScanReadsOnlyItsWindow :
    ∃ bytes bytes' : List Byte, bytes ≠ bytes' ∧ bytes.length = bytes'.length ∧
      (∀ a, 12 ≤ a → a + 1 < bytes.length → bytes[a]? = bytes'[a]?) := by
  refine ⟨b17, List.replicate 12 0xAA#8 ++ dataBytes ++ [0xBB#8], by decide, by decide, ?_⟩
  intro a h1 h2
  have h3 : a < 16 := by
    have : b17.length = 17 := by decide
    omega
  interval_cases a <;> decide

theorem witness_ScanReadsOnlyItsWindow_last :
    ∃ bytes bytes' : List Byte, bytes ≠ bytes' ∧ bytes.length = bytes'.length ∧
      (∀ a, 12 ≤ a → a < bytes.length → bytes[a]? = bytes'[a]?) := by
  refine ⟨b16, List.replicate 12 0xAA#8 ++ dataBytes, by decide, by decide, ?_⟩
  intro a h1 h2
  have h3 : a < 16 := by
    have : b16.length = 16 := by decide
    omega
  interval_cases a <;> decide

/-- Cells at the addresses 12 to 28 only: reading address 11 would fault. -/
theorem witness_ScanReadsOnlyItsWindow_cells :
    ∃ m : Memory, (∀ a, 12 ≤ a → a + 1 < m.length → ∃ b, memRead m a = .ok b) ∧
      (∀ a, 12 ≤ a → a < m.length → ∃ b, memRead m a = .ok b) ∧ 16 < m.length ∧
      (memRead m 11).toOption = none := by
  have h : ∀ a, 12 ≤ a → a < 17 → ∃ b, memRead ((List.range' 12 17).map fun k => (k, 0#8)) a = .ok b := by
    intro a h1 h2
    interval_cases a <;> exact ⟨0#8, rfl⟩
  exact ⟨(List.range' 12 17).map fun k => (k, 0#8), fun a h1 h2 => h a h1 (Nat.lt_of_succ_lt h2), h,
    by decide, by decide⟩

theorem witness_ScanIsBounded :
    (memoryOf b17).length - 16 ≤ 1 ∧ (memoryOf b17).length - 15 ≤ 2 := by decide

theorem witness_FalseMatchesAreReproduced :
    (withBuf f7).buf = some (memoryOf f7) ∧ 12 ≤ 24 ∧ 24 + 4 < f7.length ∧ tagAt f7 tagData 24 ∧
      tagAt f7 tagData 20 := by
  refine ⟨rfl, by decide, by decide, ?_, ?_⟩ <;> unfold tagAt <;> decide

/-! ## Extraction and the pipeline -/

theorem witness_DataExtractChecksInOrder :
    ((withBuf b10).buf = some (memoryOf b10) ∧ noTag false b10 tagData) ∧
    ((withBuf b17).buf = some (memoryOf b17) ∧ firstTagAt false b17 tagData 12 ∧
      b17.length < 12 + 8) ∧
    ((withBuf x4).buf = some (memoryOf x4) ∧ firstTagAt false x4 tagData 12 ∧ 12 + 8 ≤ x4.length ∧
      12 + 8 + sizeAt x4 16 = x4.length + 1) ∧
    (firstTagAt false x8 tagData 12 ∧ 12 + 8 ≤ x8.length ∧ x8.length < 12 + 8 + sizeAt x8 16) ∧
    ((withBuf s1).buf = some (memoryOf s1) ∧ firstTagAt false s1 tagData 12 ∧
      12 + 8 + sizeAt s1 16 = s1.length) ∧
    (firstTagAt false x3 tagData 12 ∧ 12 + 8 + sizeAt x3 16 = x3.length) :=
  ⟨⟨rfl, noTag_of_short (by decide)⟩, ⟨rfl, first_b17, by decide⟩,
    ⟨rfl, first_x4, by decide, by decide⟩, ⟨first_x8, by decide, by decide⟩,
    ⟨rfl, first_s1, by decide⟩, ⟨first_x3, by decide⟩⟩

theorem witness_PcmUnpackPairsBytes : (unpack [0x34#8, 0x12#8, 0x99#8])[0]? = some 0x1234#16 := by
  decide

theorem witness_WavToUlawEncodesThePayload :
    ((withBuf b10).buf = some (memoryOf b10) ∧ noTag false b10 tagData) ∧
    (firstTagAt false b17 tagData 12 ∧ b17.length < 12 + 8) ∧
    (firstTagAt false x8 tagData 12 ∧ x8.length < 12 + 8 + sizeAt x8 16) ∧
    (firstTagAt false s1 tagData 12 ∧ 12 + 8 + sizeAt s1 16 ≤ s1.length ∧ 1 < sizeAt s1 16 / 2) :=
  ⟨⟨rfl, noTag_of_short (by decide)⟩, ⟨first_b17, by decide⟩, ⟨first_x8, by decide⟩,
    ⟨first_s1, by decide, by decide⟩⟩

theorem witness_PipelineEqualsTheThreeCommands :
    (∃ t, exec .dataExtract (withBuf s1) = .next t ∧ t.resp = some ⟨.ok, some (.extent 20 4)⟩) ∧
      ∃ t, exec .dataExtract (withBuf x4) = .next t ∧ t.resp = some ⟨.truncatedPayload, none⟩ :=
  ⟨⟨_, rfl, by decide⟩, ⟨_, rfl, by decide⟩⟩

/-! ## Whole-machine rules -/

theorem witness_PerformChangesOnlyPendingAndResponse :
    ∃ t, exec .wavToUlaw (withBuf s1) = .next t ∧ (withBuf s1).buf = some (memoryOf s1) :=
  ⟨_, rfl, rfl⟩

theorem witness_ResultIsNoneExactlyOnErrors :
    (∃ t, exec .dataExtract (withBuf s1) = .next t) ∧ ∃ t, exec .dataExtract (withBuf b10) = .next t :=
  ⟨⟨_, rfl⟩, ⟨_, rfl⟩⟩

theorem witness_FourCommandsAlwaysRespondOk :
    (∃ id, findData = .chunkFind id) ∧ ∃ (bytes : List Byte), (withBuf b10).buf = some (memoryOf bytes) :=
  ⟨⟨tagData, rfl⟩, ⟨b10, rfl⟩⟩

theorem witness_ResponseDependsOnCommandAndBufferAlone :
    (∃ t, exec .dataExtract (withBuf s1) = .next t ∧
      (withPending s1 .wavToUlaw).buf = (withBuf s1).buf) ∧
      ∃ t, exec (.ulawEnc 0#16) (withBuf s1) = .next t ∧ (Instr.ulawEnc 0#16).readsBuffer = false :=
  ⟨⟨_, rfl, rfl⟩, ⟨_, rfl, rfl⟩⟩

theorem witness_BufferIsStableWhilePending :
    (∃ t, (withPending s1 .wavToUlaw).pending ≠ none ∧ step (withPending s1 .wavToUlaw) = .next t) ∧
      ∃ t, step { withPending s1 .wavToUlaw with moves := [.reset] } = .next t ∧ t.buf = none :=
  ⟨⟨_, by decide, rfl⟩, ⟨_, rfl, rfl⟩⟩

theorem witness_EveryStepKeepsTheInvariant :
    ∃ t, (withPending b17 .dataExtract).Inv ∧ step (withPending b17 .dataExtract) = .next t :=
  ⟨_, sound_withPending (by decide) rfl, rfl⟩

theorem witness_NoStepReadsOutOfBounds : (withPending b17 .wavToUlaw).Inv :=
  sound_withPending (by decide) rfl

theorem witness_EveryPendingCommandCompletes :
    (withPending b17 (.illegal 0x07#8)).Inv ∧
      (withPending b17 (.illegal 0x07#8)).pending = some (.illegal 0x07#8) :=
  ⟨sound_withPending (by decide) rfl, rfl⟩

/-- Three commands on the stream, one of each kind: no buffer, a reserved byte, a buffer command. -/
def streamState : State :=
  { withBuf b17 with
    stream := [Instr.ulawEnc 0x7FFF#16, .illegal 0x07#8, .dataExtract].flatMap encode
    moves := [Instr.ulawEnc 0x7FFF#16, .illegal 0x07#8, .dataExtract].flatMap
      (fun _ => [.issue, .perform, .take]) }

theorem witness_StreamOfCommandsRunsInOrder :
    streamState.Inv ∧ streamState.pending = none ∧
      (∀ i ∈ [Instr.ulawEnc 0x7FFF#16, .illegal 0x07#8, .dataExtract],
        i.wellFormed = true ∧ (i.readsBuffer = true → streamState.buf ≠ none)) := by
  have h := sound_withBuf (bytes := b17) (by decide)
  refine ⟨⟨h.buffer, h.pendingForm, h.pendingBuffer, h.oneAtATime, h.respForm, h.takenForm⟩, rfl, ?_⟩
  decide

theorem witness_RunEndsOnlyWithNothingPending :
    ((withBuf b17).Inv ∧ (withBuf b17).moves = [] ∧ (withBuf b17).pending = none) ∧
      ((withPending b17 .dataExtract).Inv ∧ (withPending b17 .dataExtract).moves = [] ∧
        (withPending b17 .dataExtract).pending ≠ none) :=
  ⟨⟨sound_withBuf (by decide), rfl, rfl⟩, ⟨sound_withPending (by decide) rfl, rfl, by decide⟩⟩

/-! ## Responses -/

theorem witness_ResponseLayouts :
    ([0xFF#8] : List Byte).length < 2 ^ 32 ∧ 2 ^ 63 - 1 < 2 ^ 63 ∧ 2 ^ 32 - 1 < 2 ^ 32 ∧
      ([1#16] : List Sample).length < 2 ^ 32 := by decide

theorem witness_ResponseBytesReadBack :
    ∃ t r, (withPending b17 findData).Inv ∧ (withPending b17 findData).pending = some findData ∧
      exec findData (withPending b17 findData) = .next t ∧ t.resp = some r ∧
      r.result = some (.offset (some 12)) :=
  ⟨_, _, sound_withPending (by decide) rfl, rfl, rfl, rfl, by decide⟩

/-! ## The end of a run, and the configuration -/

/-- A response is left to take, and a partial command that nothing completes. -/
theorem witness_OverRunStaysOver :
    (∃ s t : State, s.over ∧ step s = .next t ∧ (∀ ms, s.moves ≠ .reset :: ms) ∧ s.observation ≠ []) ∧
      ∃ s t : State, s.over ∧ step s = .next t ∧ s.moves = [.reset] :=
  ⟨⟨{ withMove [.take, .send [0x00#8]] with
        stream := [0x01#8], resp := some ⟨.illegalCommand, none⟩ }, _,
      ⟨rfl, by intro i rest h; cases h⟩, rfl, (by intro ms h; cases h), by decide⟩,
    ⟨withMove [.reset], _, ⟨rfl, by intro i rest h; cases h⟩, rfl, rfl⟩⟩

/-- The configuration of the other values of rule R6. -/
def otherConfig : Config := ⟨4, true, 17, 1⟩

theorem witness_CommandsFollowTheConfiguration :
    (∃ bytes : List Byte, (withBuf b10).buf = some (memoryOf bytes) ∧ bytes = b10) ∧
    (∀ id, noTag false b16 id) ∧ firstTagAt otherConfig.scanLastWindow b16 tagData 12 ∧
    b16.length < 12 + 8 ∧ firstTagAt otherConfig.scanLastWindow s1 tagData 12 ∧
    12 + 8 + sizeAt s1 16 ≤ s1.length :=
  ⟨⟨b10, rfl, rfl⟩, fun _ => noTag_of_short (by decide),
    first_at_12 ⟨by decide, .inr (by decide)⟩ (by unfold tagAt; decide), by decide,
    first_at_12 ⟨by decide, .inl (by decide)⟩ (by unfold tagAt; decide), by decide⟩

theorem witness_EveryConfiguredStepKeepsTheInvariant :
    otherConfig.legal = true ∧ (withPending b17 .wavToUlaw).InvFor otherConfig ∧
      (∃ t, stepWith otherConfig (withPending b17 .wavToUlaw) = .next t) ∧
      (withPending b17 .wavToUlaw).pending = some .wavToUlaw :=
  ⟨by decide, soundFor_withPending (by decide) (by decide) rfl, ⟨_, rfl⟩, rfl⟩

end Sys2Proof.Tests
end

section
/-! PROOFS. A command that the decoder reads has a byte form (spec/30_encoding.md rules R69 to R72). -/

namespace Sys2Proof

/-- The count fields of `CLS` and `CLB` bound the lists they announce (rule R69), and only a reserved
byte is read as `ILLEGAL` (rule R71). -/
theorem takeOperands_wellFormed {op : Byte} {bs rest : List Byte} {i : Instr}
    (h : takeOperands op bs = some (i, rest)) : i.wellFormed = true := by
  unfold takeOperands at h
  cases hop : opcodeOf op <;> simp only [hop] at h
  case ulawEnc =>
    obtain ⟨_, _, h⟩ := Option.map_eq_some_iff.1 h
    cases h
    rfl
  case ulawEncSeq =>
    obtain ⟨⟨n, r⟩, hn, h⟩ := Option.bind_eq_some_iff.1 h
    obtain ⟨⟨xs, r'⟩, hx, h⟩ := Option.map_eq_some_iff.1 h
    cases h
    obtain ⟨-, hlt⟩ := takeCount_some hn
    obtain ⟨-, hlen⟩ := takeSamples_some hx
    exact decide_eq_true (hlen ▸ hlt)
  case chunkFind =>
    obtain ⟨_, _, h⟩ := Option.map_eq_some_iff.1 h
    cases h
    rfl
  case pcmUnpack =>
    obtain ⟨⟨n, r⟩, hn, h⟩ := Option.bind_eq_some_iff.1 h
    obtain ⟨⟨xs, r'⟩, hx, h⟩ := Option.map_eq_some_iff.1 h
    cases h
    obtain ⟨-, hlt⟩ := takeCount_some hn
    obtain ⟨-, hlen⟩ := takeBytes_some hx
    exact decide_eq_true (hlen ▸ hlt)
  case illegal =>
    cases h
    exact (opcodeOf_illegal_iff op).1 hop
  case dataExtract | wavToUlaw =>
    cases h
    rfl

theorem decode_wellFormed {bs rest : List Byte} {i : Instr} (h : decode bs = .whole i rest) :
    i.wellFormed = true := by
  cases bs with
  | nil => cases h
  | cons op bs => exact takeOperands_wellFormed (decode_whole_iff.1 h)

end Sys2Proof
end

section
/-! PROOFS. The responses of the buffer commands, computed from an attached buffer, fit their fields
(spec/30_encoding.md rules R66, R74 and R75). -/

namespace Sys2Proof.Machine

/-- A candidate lies inside the buffer (rule R102). -/
theorem firstTagAt_lt_length {lastWindow : Bool} {bytes : List Byte} {id : ChunkId} {i : Nat}
    (h : firstTagAt lastWindow bytes id i) : i < bytes.length := by
  obtain ⟨⟨-, hlt | ⟨-, heq⟩⟩, -, -⟩ := h <;> omega

theorem chunkFindResponse_fits (lastWindow : Bool) (id : ChunkId) {bytes : List Byte}
    (hlen : bytes.length < 2 ^ 63) :
    ∃ r, chunkFindResponse lastWindow id (memoryOf bytes) = .ok r ∧ responseFits r = true := by
  obtain ⟨o, ho, hsome, -⟩ := findChunk_memoryOf lastWindow bytes id
  refine ⟨⟨.ok, some (.offset o)⟩, by simp only [chunkFindResponse, ho]; rfl, ?_⟩
  cases o with
  | none => rfl
  | some i => exact decide_eq_true ((firstTagAt_lt_length (hsome i rfl)).trans hlen)

/-- What the extractor can answer on an attached buffer, as its two callers need it: an error status, or
a payload inside the buffer whose size fits the size field. -/
theorem extractData_failed_or_inside (lastWindow : Bool) (bytes : List Byte) :
    (∃ st, st ≠ .ok ∧ extractData lastWindow (memoryOf bytes) = .ok (.failed st)) ∨
    ∃ start size, start + size ≤ bytes.length ∧ size < 2 ^ 32 ∧
      extractData lastWindow (memoryOf bytes) = .ok (.payload start size) := by
  obtain ⟨-, h⟩ | ⟨o, -, ⟨-, h⟩ | ⟨-, -, h⟩ | ⟨hin, h⟩⟩ := extractData_memoryOf lastWindow bytes
  · exact .inl ⟨_, by decide, h⟩
  · exact .inl ⟨_, by decide, h⟩
  · exact .inl ⟨_, by decide, h⟩
  · exact .inr ⟨_, _, hin, sizeAt_lt bytes _, h⟩

theorem responseFits_error {st : Status} (h : st ≠ .ok) : responseFits ⟨st, none⟩ = true := by
  cases st with
  | ok => exact absurd rfl h
  | chunkNotFound | truncatedPayload | illegalCommand => rfl

theorem dataExtractResponse_fits (lastWindow : Bool) {bytes : List Byte}
    (hlen : bytes.length < 2 ^ 63) :
    ∃ r, dataExtractResponse lastWindow (memoryOf bytes) = .ok r ∧ responseFits r = true := by
  obtain ⟨st, hst, h⟩ | ⟨start, size, hin, hsize, h⟩ := extractData_failed_or_inside lastWindow bytes
  · exact ⟨⟨st, none⟩, by simp [dataExtractResponse, h], responseFits_error hst⟩
  · have hstart : start < 2 ^ 63 := by omega
    exact ⟨⟨.ok, some (.extent start size)⟩, by simp [dataExtractResponse, h],
      Bool.and_eq_true_iff.2 ⟨decide_eq_true hstart, decide_eq_true hsize⟩⟩

theorem wavToUlawResponse_fits (lastWindow : Bool) (seg0Shift : Nat) (bytes : List Byte) :
    ∃ r, wavToUlawResponse lastWindow seg0Shift (memoryOf bytes) = .ok r ∧
      responseFits r = true := by
  obtain ⟨st, hst, h⟩ | ⟨start, size, hin, hsize, h⟩ := extractData_failed_or_inside lastWindow bytes
  · exact ⟨⟨st, none⟩, by simp [wavToUlawResponse, h], responseFits_error hst⟩
  · refine ⟨_, by simp only [wavToUlawResponse, h, memRange_memoryOf bytes start size hin]; rfl, ?_⟩
    simp only [responseFits, resultFits, List.length_map, unpack_length, List.length_take,
      decide_eq_true_eq]
    omega

end Sys2Proof.Machine
end

section
/-! PROOFS. The invariant in a block of any configuration: every update of the state keeps it, and under
it every pending command completes (spec/10_state.md rules R26 and R27, spec/70_reset_and_hazards.md
rule R239). -/

namespace Sys2Proof.Machine

variable {c : Config} {s t : State}

/-! ### Each update of the state keeps the invariant -/

/-- The schedule is not part of the invariant. -/
theorem State.InvFor.withMoves (h : s.InvFor c) (ms : List Move) : (s.withMoves ms).InvFor c :=
  ⟨h.buffer, h.pendingForm, h.pendingBuffer, h.oneAtATime, h.respForm, h.takenForm⟩

/-- The command stream is not part of the invariant. -/
theorem State.InvFor.sent (h : s.InvFor c) (bytes : List Byte) : (s.sent bytes).InvFor c :=
  ⟨h.buffer, h.pendingForm, h.pendingBuffer, h.oneAtATime, h.respForm, h.takenForm⟩

theorem State.InvFor.afterReset (h : s.InvFor c) : s.afterReset.InvFor c where
  buffer := by simp
  pendingForm := by simp
  pendingBuffer := by simp
  oneAtATime := by simp
  respForm := by simp
  takenForm := h.takenForm

/-- With nothing pending, any buffer up to `MAX_LEN` may be attached (rule R27). -/
theorem State.InvFor.attached (h : s.InvFor c) (hp : s.pending = none) {bytes : List Byte}
    (hlen : bytes.length ≤ c.maxLen) : (s.attached bytes).InvFor c where
  buffer := by
    rintro m ⟨⟩
    exact ⟨memoryOf_wf bytes, (memoryOf_length bytes).trans_le hlen⟩
  pendingForm := h.pendingForm
  pendingBuffer := by simp [hp]
  oneAtATime := h.oneAtATime
  respForm := h.respForm
  takenForm := h.takenForm

theorem State.InvFor.issued (h : s.InvFor c) {i : Instr} (hform : i.wellFormed = true)
    (hbuf : i.readsBuffer = true → s.buf ≠ none) (rest : List Byte) :
    (s.issued i rest).InvFor c where
  buffer := h.buffer
  pendingForm := by
    rintro j ⟨⟩
    exact hform
  pendingBuffer := by
    rintro j ⟨⟩
    exact hbuf
  oneAtATime := fun _ => rfl
  respForm := by simp
  takenForm := h.takenForm

theorem State.InvFor.afterTake (h : s.InvFor c) {r : Response} (hr : s.resp = some r) :
    (s.afterTake r).InvFor c where
  buffer := h.buffer
  pendingForm := h.pendingForm
  pendingBuffer := h.pendingBuffer
  oneAtATime := fun _ => rfl
  respForm := by simp
  takenForm := by
    intro q hq
    rcases List.mem_append.1 hq with hq | hq
    · exact h.takenForm q hq
    · exact List.mem_singleton.1 hq ▸ h.respForm r hr

theorem State.InvFor.answer (h : s.InvFor c) {r : Response} (hr : responseFits r = true) :
    (s.answer r).InvFor c where
  buffer := h.buffer
  pendingForm := by simp
  pendingBuffer := by simp
  oneAtATime := by simp
  respForm := by
    rintro q ⟨⟩
    exact hr
  takenForm := h.takenForm

/-! ### Under the invariant a pending command completes -/

theorem maxLen_lt_of_legal (hc : c.legal = true) : c.maxLen < 2 ^ 63 := by
  simp only [Config.legal, Bool.and_eq_true, decide_eq_true_eq] at hc
  omega

/-- A command that reads the buffer finds an attached byte list, shorter than `2^63` (rules R27, R40 and
R232). -/
theorem State.InvFor.attachedBytes (hc : c.legal = true) (h : s.InvFor c) {i : Instr}
    (hp : s.pending = some i) (hi : i.readsBuffer = true) :
    ∃ bytes, s.buf = some (memoryOf bytes) ∧ bytes.length < 2 ^ 63 := by
  obtain ⟨m, hm⟩ := Option.ne_none_iff_exists'.1 (h.pendingBuffer i hp hi)
  obtain ⟨hwf, hle⟩ := h.buffer m hm
  refine ⟨m.map Prod.snd, hm.trans (congrArg some (Memory.eq_memoryOf hwf)), ?_⟩
  rw [List.length_map]
  exact hle.trans_lt (maxLen_lt_of_legal hc)

theorem onBuffer_completes {k : Memory → Except Fault Response} {m : Memory} (hm : s.buf = some m)
    (hk : ∃ r, k m = .ok r ∧ responseFits r = true) :
    ∃ r, onBuffer k s = .next (s.answer r) ∧ responseFits r = true := by
  obtain ⟨r, hr, hfits⟩ := hk
  exact ⟨r, onBuffer_ok hm hr, hfits⟩

/-- Every pending command answers, with a response that fits its fields (rules R206 and R239). -/
theorem execWith_completes (hc : c.legal = true) (h : s.InvFor c) {i : Instr}
    (hp : s.pending = some i) :
    ∃ r, execWith c i s = .next (s.answer r) ∧ responseFits r = true := by
  have hform := h.pendingForm i hp
  cases i with
  | ulawEnc x => exact ⟨_, rfl, rfl⟩
  | ulawEncSeq xs =>
    have hlen : xs.length < 2 ^ 32 := by simpa [Instr.wellFormed] using hform
    exact ⟨_, rfl, by simpa [responseFits, resultFits] using hlen⟩
  | chunkFind id =>
    obtain ⟨bytes, hb, hlen⟩ := h.attachedBytes hc hp rfl
    exact onBuffer_completes hb (chunkFindResponse_fits _ id hlen)
  | dataExtract =>
    obtain ⟨bytes, hb, hlen⟩ := h.attachedBytes hc hp rfl
    exact onBuffer_completes hb (dataExtractResponse_fits _ hlen)
  | pcmUnpack bs =>
    have hlen : bs.length < 2 ^ 32 := by simpa [Instr.wellFormed] using hform
    refine ⟨_, rfl, ?_⟩
    simp only [responseFits, resultFits, unpack_length, decide_eq_true_eq]
    omega
  | wavToUlaw =>
    obtain ⟨bytes, hb, -⟩ := h.attachedBytes hc hp rfl
    exact onBuffer_completes hb (wavToUlawResponse_fits _ _ bytes)
  | illegal op => exact ⟨_, rfl, rfl⟩

/-! ### A step keeps the invariant and does not fault -/

theorem execWith_keeps_invFor (hc : c.legal = true) (h : s.InvFor c) {i : Instr}
    (hp : s.pending = some i) (ht : execWith c i s = .next t) : t.InvFor c := by
  obtain ⟨r, hr, hfits⟩ := execWith_completes hc h hp
  cases hr.symm.trans ht
  exact h.answer hfits

theorem stepWith_keeps_invFor (hc : c.legal = true) (h : s.InvFor c) (ht : stepWith c s = .next t) :
    t.InvFor c := by
  obtain ⟨-, i, hp, ht⟩ | ⟨mv, ms, -, hmove⟩ := stepOf_next ht
  · exact execWith_keeps_invFor hc h hp ht
  · have h' := h.withMoves ms
    obtain ⟨-, rfl⟩ | ⟨bytes, -, hp, hlen, rfl⟩ | ⟨bytes, -, rfl⟩ |
      ⟨-, -, i, rest, hd, hbuf, rfl⟩ | ⟨-, r, hr, rfl⟩ | ⟨-, i, hp, ht⟩ := hmove
    · exact h'.afterReset
    · exact h'.attached hp hlen
    · exact h'.sent bytes
    · exact h'.issued (decode_wellFormed hd) hbuf rest
    · exact h'.afterTake hr
    · exact execWith_keeps_invFor hc h' hp ht

theorem doAttach_ne_fault (bytes : List Byte) (f : Fault) : doAttach c bytes s ≠ .fault f := by
  unfold doAttach
  split
  · nofun
  · split <;> nofun

theorem doIssue_ne_fault (f : Fault) : doIssue s ≠ .fault f := by
  unfold doIssue
  split
  · nofun
  · split
    · nofun
    · nofun
    · split <;> nofun

theorem doTake_ne_fault (f : Fault) : doTake s ≠ .fault f := by
  unfold doTake
  split <;> nofun

theorem doPerform_fault {perf : Performer} {f : Fault} (h : doPerform perf s = .fault f) :
    ∃ i, s.pending = some i ∧ perf i s = .fault f := by
  unfold doPerform at h
  split at h
  · cases h
  · exact ⟨_, ‹_›, h⟩

theorem doNoMove_fault {perf : Performer} {f : Fault} (h : doNoMove perf s = .fault f) :
    ∃ i, s.pending = some i ∧ perf i s = .fault f := by
  unfold doNoMove at h
  split at h
  · cases h
  · exact ⟨_, ‹_›, h⟩

/-- Only the `perform` of a pending command can fault a step, under whatever schedule it runs. -/
theorem stepOf_fault {perf : Performer} {f : Fault} (h : stepOf c perf s = .fault f) :
    ∃ i ms, s.pending = some i ∧ perf i (s.withMoves ms) = .fault f := by
  unfold stepOf at h
  split at h
  · obtain ⟨i, hp, hf⟩ := doNoMove_fault h
    exact ⟨i, s.moves, hp, hf⟩
  · rename_i mv ms _
    cases mv with
    | reset => cases h
    | attach bytes => exact absurd h (doAttach_ne_fault bytes f)
    | send bytes => cases h
    | issue => exact absurd h (doIssue_ne_fault f)
    | take => exact absurd h (doTake_ne_fault f)
    | perform =>
      obtain ⟨i, hp, hf⟩ := doPerform_fault h
      exact ⟨i, ms, hp, hf⟩

/-- No step reads outside the buffer (rule R41): a pending command completes, so it does not fault. -/
theorem stepWith_ne_fault (hc : c.legal = true) (h : s.InvFor c) (f : Fault) :
    stepWith c s ≠ .fault f := by
  intro hf
  obtain ⟨i, ms, hp, hf⟩ := stepOf_fault hf
  obtain ⟨r, hr, -⟩ := execWith_completes hc (h.withMoves ms) hp
  cases hr.symm.trans hf

end Sys2Proof.Machine
end

section
/-! PROOFS. The statements on the configuration (spec/00_scope.md rule R6, spec/10_state.md rule R25). -/

namespace Sys2Proof.Machine

/-- Settles O59: every update of the state keeps the invariant, and under it every pending command
answers, so no step faults. -/
theorem everyConfiguredStepKeepsTheInvariant : Obligations.EveryConfiguredStepKeepsTheInvariant := by
  intro c s hc h
  exact ⟨fun _ => stepWith_keeps_invFor hc h, stepWith_ne_fault hc h,
    fun _ => execWith_completes hc h⟩

/-- Settles O57: the configuration of this hardware is legal, and its commands and steps are the
configured ones, as the laws `execWith_hw` and `stepWith_hw` say. -/
theorem stepIsTheConfiguredStepOfThisHardware :
    Obligations.StepIsTheConfiguredStepOfThisHardware :=
  ⟨hw_legal, rfl, rfl, fun i => congrFun (congrFun execWith_hw i), congrFun stepWith_hw⟩

end Sys2Proof.Machine
end

section
/-! PROOFS. What each move does where it is enabled, and the name under which it is refused where it is
not (spec/10_state.md rules R26 and R27, spec/30_encoding.md rule R72). -/

namespace Sys2Proof.Machine

variable {c : Config} {perf : Performer} {s : State}

/-! ### The step of a schedule -/

theorem step_of_moves_cons {mv : Move} {ms : List Move} (h : s.moves = mv :: ms) :
    step s = doMove hw exec mv (s.withMoves ms) := by
  simp only [step, stepOf, h]

theorem step_of_moves_nil (h : s.moves = []) : step s = doNoMove exec s := by
  simp only [step, stepOf, h]

/-! ### `attach` -/

theorem doAttach_of_pending (bytes : List Byte) (hp : s.pending ≠ none) :
    doAttach c bytes s = .refused .commandPending :=
  if_pos hp

theorem doAttach_of_tooLong {bytes : List Byte} (hp : s.pending = none)
    (hlen : c.maxLen < bytes.length) : doAttach c bytes s = .refused .bufferTooLong := by
  simp [doAttach, hp, hlen]

theorem doAttach_of_enabled {bytes : List Byte} (hp : s.pending = none)
    (hlen : bytes.length ≤ c.maxLen) : doAttach c bytes s = .next (s.attached bytes) := by
  simp [doAttach, hp, hlen]

/-! ### `issue` -/

theorem doIssue_of_pending (hp : s.pending ≠ none) : doIssue s = .refused .commandPending :=
  if_pos hp

theorem doIssue_of_empty (hp : s.pending = none) (hd : decode s.stream = .empty) :
    doIssue s = .refused .emptyStream := by
  simp [doIssue, hp, hd]

theorem doIssue_of_incomplete (hp : s.pending = none) (hd : decode s.stream = .incomplete) :
    doIssue s = .refused .incompleteCommand := by
  simp [doIssue, hp, hd]

theorem doIssue_of_enabled {i : Instr} {rest : List Byte} (hp : s.pending = none)
    (hd : decode s.stream = .whole i rest) (hb : i.readsBuffer = true → s.buf ≠ none) :
    doIssue s = .next (s.issued i rest) := by
  simpa [doIssue, hp, hd] using hb

/-! ### `take` and `perform` -/

theorem doTake_of_noResponse (hr : s.resp = none) : doTake s = .refused .noResponse := by
  simp only [doTake, hr]

theorem doTake_of_resp {r : Response} (hr : s.resp = some r) : doTake s = .next (s.afterTake r) := by
  simp only [doTake, hr]

theorem doPerform_of_nothingPending (hp : s.pending = none) :
    doPerform perf s = .refused .nothingPending := by
  simp only [doPerform, hp]

theorem doPerform_of_pending {i : Instr} (hp : s.pending = some i) : doPerform perf s = perf i s := by
  simp only [doPerform, hp]

theorem doNoMove_of_pending {i : Instr} (hp : s.pending = some i) : doNoMove perf s = perf i s := by
  simp only [doNoMove, hp]

/-! ### A run of one step -/

theorem runSteps_one (s : State) : runSteps 1 s = step s := by
  unfold runSteps
  cases step s <;> rfl

end Sys2Proof.Machine
end

section
/-! PROOFS. The statements on the state after reset, the moves and the invariant (spec/10_state.md rules
R26, R27 and R30, spec/20_memory.md rules R40 and R41). -/

namespace Sys2Proof.Machine

/-- With nothing pending, no response, no buffer and nothing taken, the invariant asks for nothing. -/
theorem State.reset_invFor (c : Config) : State.reset.InvFor c where
  buffer := nofun
  pendingForm := nofun
  pendingBuffer := nofun
  oneAtATime := fun _ => rfl
  respForm := nofun
  takenForm := nofun

/-- Settles O48: the step of this hardware is the configured one at a legal configuration, and there every
step keeps the invariant. -/
theorem everyStepKeepsTheInvariant : Obligations.EveryStepKeepsTheInvariant := by
  intro s t hinv hstep
  rw [← stepWith_hw] at hstep
  exact stepWith_keeps_invFor hw_legal hinv hstep

/-- Settles O8: `attach` is enabled there, and reading the buffer it makes is reading the byte list. -/
theorem attachSetsTheBuffer : Obligations.AttachSetsTheBuffer := by
  intro s ms bytes hm hp hlen
  have hstep : step s = .next ((s.withMoves ms).attached bytes) :=
    (step_of_moves_cons hm).trans (doAttach_of_enabled hp hlen)
  exact ⟨memoryOf bytes, hstep, memoryOf_wf bytes, memoryOf_length bytes,
    fun _ => ⟨fun _ => memRead_ok, memRead_fault⟩⟩

/-- Settles O10: the bytes of a canonical buffer make it again, and they can be read back from it. -/
theorem canonicalBuffersAreAttachedByteLists : Obligations.CanonicalBuffersAreAttachedByteLists := by
  refine ⟨fun m => ⟨fun hwf => ⟨m.map Prod.snd, Memory.eq_memoryOf hwf⟩, ?_⟩,
    fun _ _ => memoryOf_injective⟩
  rintro ⟨bytes, rfl⟩
  exact memoryOf_wf bytes

/-- Settles O1: the three fields of `State.reset`. -/
theorem resetStateIsEmpty : Obligations.ResetStateIsEmpty := ⟨rfl, rfl, rfl⟩

/-- Settles O4: with a command pending, the `perform` move and the empty schedule both perform it. -/
theorem performStepRunsPendingCommand : Obligations.PerformStepRunsPendingCommand := by
  intro s ms i hp
  exact ⟨fun hm => (step_of_moves_cons hm).trans (doPerform_of_pending hp),
    fun hm => (step_of_moves_nil hm).trans (doNoMove_of_pending hp)⟩

/-- Settles O5: the issue is enabled, and the `perform` that follows finds its command pending. -/
theorem streamHeadIsDecodedAndPerformed : Obligations.StreamHeadIsDecodedAndPerformed := by
  intro s ms i rest hm hp hd hb
  have hissue : step s = .next ((s.withMoves (.perform :: ms)).issued i rest) :=
    (step_of_moves_cons hm).trans (doIssue_of_enabled hp hd hb)
  have hperform : step ((s.withMoves (.perform :: ms)).issued i rest) =
      exec i ((s.withMoves ms).issued i rest) :=
    (performStepRunsPendingCommand _ ms i rfl).1 rfl
  refine ⟨hissue, ?_⟩
  calc runSteps 2 s
      = runSteps 1 ((s.withMoves (.perform :: ms)).issued i rest) :=
        runSteps_add ((runSteps_one s).trans hissue) 1
    _ = exec i ((s.withMoves ms).issued i rest) := (runSteps_one _).trans hperform

/-- Settles O7: each move is refused by the check that rule R26, R27 or R72 puts on it. -/
theorem disabledMovesAreRefused : Obligations.DisabledMovesAreRefused := by
  intro s ms
  refine ⟨fun bytes hm hp => ?_, fun bytes hm hp hlen => ?_, fun hm hp => ?_, fun hm hp hs => ?_,
    fun hm hp hd => ?_, fun hm hr => ?_, fun hm hp => ?_⟩ <;> rw [step_of_moves_cons hm]
  · exact doAttach_of_pending bytes hp
  · exact doAttach_of_tooLong hp hlen
  · exact doIssue_of_pending hp
  · exact doIssue_of_empty hp (congrArg decode hs)
  · exact doIssue_of_incomplete hp hd
  · exact doTake_of_noResponse hr
  · exact doPerform_of_nothingPending hp

/-- Settles O9: `take` is enabled where there is a response. -/
theorem takeReturnsTheResponse : Obligations.TakeReturnsTheResponse := by
  intro s ms r hm hr
  exact (step_of_moves_cons hm).trans (doTake_of_resp hr)

/-- Settles O47: the reset state meets the invariant in a block of any configuration. -/
theorem resetStateIsSound : Obligations.ResetStateIsSound := State.reset_invFor hw

end Sys2Proof.Machine
end

section
/-! PROOFS. A response is a function of the command and the buffer (spec/10_state.md rule R21). -/

namespace Sys2Proof.Machine

variable {s t : State}

theorem respond_in_any_state {st : Status} {v : Option Result} (h : respond st v s = .next t)
    (s' : State) : respond st v s' = .next { s' with pending := none, resp := t.resp } := by
  cases respond_next h
  rfl

theorem onBuffer_of_same_buf {k : Memory → Except Fault Response} {s' : State}
    (hb : s'.buf = s.buf) (h : onBuffer k s = .next t) :
    onBuffer k s' = .next { s' with pending := none, resp := t.resp } := by
  obtain ⟨m, r, hm, hk, rfl⟩ := onBuffer_next h
  exact onBuffer_ok (hb.trans hm) hk

/-- Settles O45: a command that reads the buffer answers what it computes from it, and the others answer
what they compute from their operands. -/
theorem responseDependsOnCommandAndBufferAlone :
    Obligations.ResponseDependsOnCommandAndBufferAlone := by
  intro i s s' t hbuf h
  cases i with
  | ulawEnc | ulawEncSeq | pcmUnpack | illegal => exact respond_in_any_state h s'
  | chunkFind | dataExtract | wavToUlaw => exact onBuffer_of_same_buf (hbuf rfl) h

end Sys2Proof.Machine
end

section
/-! PROOFS. The ranges of the encoder's intermediate values (spec/10_state.md rule R29). -/

namespace Sys2Proof.Machine

theorem signBit_cases (x : Sample) : signBit x = 0 ∨ signBit x = 0x80 := by
  unfold signBit
  split
  · exact .inr rfl
  · exact .inl rfl

/-- What the segment is found from is a non-zero byte (rules R143 and R144). -/
theorem biased_shiftRight_range (mag : Nat) : 1 ≤ biased mag >>> 7 ∧ biased mag >>> 7 ≤ 255 := by
  have hm := biased_range mag
  rw [Nat.shiftRight_eq_div_pow]
  omega

/-- Settles O29: the laws of the encoder, each of one step's range. -/
theorem intermediateValuesFitTheirWidths : Obligations.IntermediateValuesFitTheirWidths := by
  intro shift x _
  obtain ⟨hlo, hhi⟩ := biased_range (magnitude x)
  obtain ⟨hone, hbyte⟩ := biased_shiftRight_range (magnitude x)
  exact ⟨signBit_cases x, magnitude_le x, Nat.min_le_right _ _, hlo, hhi, hone, hbyte,
    (segment_bounds hlo hhi).1, mantissa_le _ _ _, Nat.le_of_lt_succ (ulawCode_lt shift x)⟩

end Sys2Proof.Machine
end

section
/-! PROOFS. What the buffer commands compute from an attached buffer, in a block of any configuration
(spec/40_chunk_locator.md rule R100, spec/41_data_extract.md rule R120, spec/43_pipeline.md rule R170). -/

namespace Sys2Proof.Machine

variable {lastWindow : Bool} {bytes : List Byte}

/-- The scan's answer, characterised both ways: the first tag exactly, and NotFound exactly where there is
none (rules R100 and R105). -/
theorem findChunk_eq_some_and_none_iff (lastWindow : Bool) (bytes : List Byte) (id : ChunkId) :
    ∃ o, findChunk lastWindow (memoryOf bytes) id = .ok o ∧
      (∀ i, o = some i ↔ firstTagAt lastWindow bytes id i) ∧
      (o = none ↔ noTag lastWindow bytes id) := by
  obtain ⟨o, ho, hsome, hnone⟩ := findChunk_memoryOf lastWindow bytes id
  refine ⟨o, ho, fun i => ⟨hsome i, fun hfirst => ?_⟩, hnone, fun hno => ?_⟩
  · exact Except.ok.inj (ho.symm.trans (findChunk_of_first hfirst))
  · exact Except.ok.inj (ho.symm.trans (findChunk_of_noTag hno))

/-! ### The extractor's three answers -/

theorem extractData_of_noTag (h : noTag lastWindow bytes tagData) :
    extractData lastWindow (memoryOf bytes) = .ok (.failed .chunkNotFound) := by
  obtain ⟨-, hx⟩ | ⟨o, ⟨hc, ht, -⟩, -⟩ := extractData_memoryOf lastWindow bytes
  · exact hx
  · exact absurd ht (h o hc)

/-- With the first tag given, one comparison decides: where the size field does not fit, the payload does
not fit either (rules R121, R123 and R205). -/
theorem extractData_of_first {o : Nat} (h : firstTagAt lastWindow bytes tagData o) :
    extractData lastWindow (memoryOf bytes) =
      if bytes.length < o + 8 + sizeAt bytes (o + 4) then .ok (.failed .truncatedPayload)
      else .ok (.payload (o + 8) (sizeAt bytes (o + 4))) := by
  obtain ⟨hno, -⟩ | ⟨o', h', hcases⟩ := extractData_memoryOf lastWindow bytes
  · exact absurd h.2.1 (hno o h.1)
  · obtain rfl := firstTagAt_unique h h'
    obtain ⟨hshort, hx⟩ | ⟨-, hpast, hx⟩ | ⟨hin, hx⟩ := hcases
    · rw [hx, if_pos (by omega)]
    · rw [hx, if_pos hpast]
    · rw [hx, if_neg (Nat.not_lt.2 hin)]

theorem extractData_of_truncated {o : Nat} (h : firstTagAt lastWindow bytes tagData o)
    (ht : bytes.length < o + 8 ∨ bytes.length < o + 8 + sizeAt bytes (o + 4)) :
    extractData lastWindow (memoryOf bytes) = .ok (.failed .truncatedPayload) := by
  rw [extractData_of_first h, if_pos (by omega)]

theorem extractData_of_inside {o : Nat} (h : firstTagAt lastWindow bytes tagData o)
    (hin : o + 8 + sizeAt bytes (o + 4) ≤ bytes.length) :
    extractData lastWindow (memoryOf bytes) = .ok (.payload (o + 8) (sizeAt bytes (o + 4))) := by
  rw [extractData_of_first h, if_neg (Nat.not_lt.2 hin)]

/-! ### The samples of a payload -/

theorem byteVal_of_getElem? {a : Nat} {b : Byte} (h : bytes[a]? = some b) :
    byteVal bytes a = b.toNat := by
  simp [byteVal, List.getD_eq_getElem?_getD, h]

theorem getElem?_of_slice {start size k : Nat} {b : Byte}
    (h : ((bytes.drop start).take size)[k]? = some b) : bytes[start + k]? = some b := by
  rw [List.getElem?_take, Option.ite_none_right_eq_some, List.getElem?_drop] at h
  exact h.2

/-- The samples of the payload `buf[start, start + size)` (rule R170). -/
theorem unpack_slice_length {start size : Nat} (hin : start + size ≤ bytes.length) :
    (unpack ((bytes.drop start).take size)).length = size / 2 := by
  rw [unpack_length, List.length_take, List.length_drop]
  congr 1
  omega

/-- Sample `k` is the value of its little-endian pair in the buffer (rules R60 and R61). -/
theorem unpack_slice_toInt {start size k : Nat} {x : Sample}
    (h : (unpack ((bytes.drop start).take size))[k]? = some x) :
    x.toInt = sext16 (byteVal bytes (start + 2 * k) + 256 * byteVal bytes (start + 2 * k + 1)) := by
  obtain ⟨lo, hi, hlo, hhi, rfl⟩ := unpack_getElem? _ k x h
  rw [toInt_eq_sext16, sampleOf_toNat, byteVal_of_getElem? (getElem?_of_slice hlo), Nat.add_assoc,
    byteVal_of_getElem? (getElem?_of_slice hhi)]

/-! ### The responses of the two commands that extract -/

theorem dataExtractResponse_of_failed {st : Status} {m : Memory}
    (h : extractData lastWindow m = .ok (.failed st)) :
    dataExtractResponse lastWindow m = .ok ⟨st, none⟩ := by
  simp only [dataExtractResponse, h]

theorem dataExtractResponse_of_payload {start size : Nat} {m : Memory}
    (h : extractData lastWindow m = .ok (.payload start size)) :
    dataExtractResponse lastWindow m = .ok ⟨.ok, some (.extent start size)⟩ := by
  simp only [dataExtractResponse, h]

theorem wavToUlawResponse_of_failed {st : Status} {m : Memory} (seg0Shift : Nat)
    (h : extractData lastWindow m = .ok (.failed st)) :
    wavToUlawResponse lastWindow seg0Shift m = .ok ⟨st, none⟩ := by
  simp only [wavToUlawResponse, h]

theorem wavToUlawResponse_of_payload {start size : Nat} (seg0Shift : Nat)
    (h : extractData lastWindow (memoryOf bytes) = .ok (.payload start size))
    (hin : start + size ≤ bytes.length) :
    wavToUlawResponse lastWindow seg0Shift (memoryOf bytes) =
      .ok ⟨.ok, some (.codes ((unpack ((bytes.drop start).take size)).map (enc1 seg0Shift)))⟩ := by
  simp only [wavToUlawResponse, h, memRange_memoryOf bytes start size hin]

theorem chunkFindResponse_of_ok {id : ChunkId} {m : Memory} {o : Option Nat}
    (h : findChunk lastWindow m id = .ok o) :
    chunkFindResponse lastWindow id m = .ok ⟨.ok, some (.offset o)⟩ := by
  simp only [chunkFindResponse, h]
  rfl

/-- Where the extractor fails, both commands that extract answer its status alone (rules R120 and
R170). -/
theorem execWith_of_extractData_failed {c : Config} {s : State} {st : Status} {m : Memory}
    (hm : s.buf = some m) (h : extractData c.scanLastWindow m = .ok (.failed st)) {i : Instr}
    (hi : i = .dataExtract ∨ i = .wavToUlaw) : execWith c i s = .next (s.answer ⟨st, none⟩) := by
  obtain rfl | rfl := hi
  · exact onBuffer_ok hm (dataExtractResponse_of_failed h)
  · exact onBuffer_ok hm (wavToUlawResponse_of_failed _ h)

/-- Settles O58: the encoder's commands answer by definition, the scan's answer is characterised by
`findChunk_eq_some_and_none_iff`, and the extractor's three answers decide the other two commands. -/
theorem commandsFollowTheConfiguration : Obligations.CommandsFollowTheConfiguration := by
  intro c s
  refine ⟨fun _ => rfl, fun _ => rfl, fun _ => rfl, fun _ => rfl, fun bytes hbuf =>
    ⟨fun id => ?chunkFind, fun hno _ hi => ?noTag, fun o hfirst htrunc _ hi => ?truncated,
      fun o hfirst hin => ?inside⟩⟩
  case chunkFind =>
    obtain ⟨o, ho, hiff⟩ := findChunk_eq_some_and_none_iff c.scanLastWindow bytes id
    exact ⟨o, onBuffer_ok hbuf (chunkFindResponse_of_ok ho), hiff⟩
  case noTag => exact execWith_of_extractData_failed hbuf (extractData_of_noTag hno) hi
  case truncated =>
    exact execWith_of_extractData_failed hbuf (extractData_of_truncated hfirst htrunc) hi
  case inside =>
    have hx := extractData_of_inside hfirst hin
    exact ⟨onBuffer_ok hbuf (dataExtractResponse_of_payload hx), _, unpack_slice_length hin,
      onBuffer_ok hbuf (wavToUlawResponse_of_payload _ hx hin), fun _ _ => unpack_slice_toInt⟩

end Sys2Proof.Machine
end

section
/-! PROOFS. The statements on the buffer space (spec/20_memory.md rules R41 and R42). -/

namespace Sys2Proof.Machine

/-- Settles O49: the step of this hardware is the configured one at a legal configuration, and there no
step from a sound state faults, because every pending command completes. -/
theorem noStepReadsOutOfBounds : Obligations.NoStepReadsOutOfBounds := by
  intro s f hinv
  rw [← stepWith_hw]
  exact stepWith_ne_fault hw_legal hinv f

/-- Settles O42: all that a `perform` does is answer, and an answer leaves every other field as it is. -/
theorem performChangesOnlyPendingAndResponse :
    Obligations.PerformChangesOnlyPendingAndResponse := by
  intro i s t h
  obtain ⟨r, rfl⟩ := exec_next h
  exact ⟨s.answer_buf r, s.answer_stream r, s.answer_moves r, s.answer_taken r, s.answer_pending r,
    fun m hm => ⟨m, (s.answer_buf r).trans hm, fun _ => rfl⟩⟩

end Sys2Proof.Machine
end

section
/-! PROOFS. The byte forms of the commands: decoding and encoding are inverse to each other, the header
tells the length, and every beginning can be completed (spec/30_encoding.md rules R68 to R73). -/

namespace Sys2Proof

open Machine

/-! ### The operands that follow each command byte (rules R69 to R71) -/

theorem takeOperands_ulawEnc (bs : List Byte) :
    takeOperands 0x01#8 bs = (takeSample bs).map fun p => (.ulawEnc p.1, p.2) := rfl

theorem takeOperands_ulawEncSeq (bs : List Byte) :
    takeOperands 0x02#8 bs =
      (takeCount bs).bind fun c => (takeSamples c.1 c.2).map fun p => (.ulawEncSeq p.1, p.2) := rfl

theorem takeOperands_chunkFind (bs : List Byte) :
    takeOperands 0x03#8 bs = (takeId bs).map fun p => (.chunkFind p.1, p.2) := rfl

theorem takeOperands_dataExtract (bs : List Byte) :
    takeOperands 0x04#8 bs = some (.dataExtract, bs) := rfl

theorem takeOperands_pcmUnpack (bs : List Byte) :
    takeOperands 0x05#8 bs =
      (takeCount bs).bind fun c => (takeBytes c.1 c.2).map fun p => (.pcmUnpack p.1, p.2) := rfl

theorem takeOperands_wavToUlaw (bs : List Byte) :
    takeOperands 0x06#8 bs = some (.wavToUlaw, bs) := rfl

theorem takeOperands_illegal {op : Byte} (h : opcodeOf op = .illegal) (bs : List Byte) :
    takeOperands op bs = some (.illegal op, bs) := by
  simp only [takeOperands, h]

/-! ### Decoding and encoding -/

theorem decode_encode_append (i : Instr) (rest : List Byte) (h : i.wellFormed = true) :
    decode (encode i ++ rest) = .whole i rest := by
  cases i <;> refine decode_whole_iff.2 ?_ <;> simp only [List.append_eq, List.append_assoc]
  case ulawEnc x => rw [takeOperands_ulawEnc, takeSample_append, Option.map_some]
  case ulawEncSeq xs =>
    rw [takeOperands_ulawEncSeq, takeCount_append (of_decide_eq_true h), Option.bind_some,
      takeSamples_append, Option.map_some]
  case chunkFind id => rw [takeOperands_chunkFind, takeId_append, Option.map_some]
  case dataExtract => exact takeOperands_dataExtract rest
  case pcmUnpack bs =>
    rw [takeOperands_pcmUnpack, takeCount_append (of_decide_eq_true h), Option.bind_some,
      takeBytes_append, Option.map_some]
  case wavToUlaw => exact takeOperands_wavToUlaw rest
  case illegal op => exact takeOperands_illegal ((opcodeOf_illegal_iff op).2 h) rest

/-- A command byte and the operands taken after it are the byte form of the command they are read as. -/
theorem takeOperands_eq_encode {op : Byte} {bs rest : List Byte} {i : Instr}
    (h : takeOperands op bs = some (i, rest)) : op :: bs = encode i ++ rest := by
  obtain ⟨rfl, -⟩ | ⟨rfl, -⟩ | ⟨rfl, -⟩ | ⟨rfl, -⟩ | ⟨rfl, -⟩ | ⟨rfl, -⟩ | ⟨-, hop⟩ :=
    opcodeOf_cases op
  · obtain ⟨⟨x, r⟩, hx, h⟩ := Option.map_eq_some_iff.1 (takeOperands_ulawEnc bs ▸ h)
    cases h
    exact congrArg _ (takeSample_some hx)
  · obtain ⟨⟨n, r⟩, hn, h⟩ := Option.bind_eq_some_iff.1 (takeOperands_ulawEncSeq bs ▸ h)
    obtain ⟨⟨xs, r'⟩, hx, h⟩ := Option.map_eq_some_iff.1 h
    cases h
    obtain ⟨rfl, -⟩ := takeCount_some hn
    obtain ⟨rfl, rfl⟩ := takeSamples_some hx
    simp only [encode, List.cons_append, List.append_assoc]
  · obtain ⟨⟨id, r⟩, hx, h⟩ := Option.map_eq_some_iff.1 (takeOperands_chunkFind bs ▸ h)
    cases h
    exact congrArg _ (takeId_some hx)
  · cases (takeOperands_dataExtract bs).symm.trans h
    rfl
  · obtain ⟨⟨n, r⟩, hn, h⟩ := Option.bind_eq_some_iff.1 (takeOperands_pcmUnpack bs ▸ h)
    obtain ⟨⟨xs, r'⟩, hx, h⟩ := Option.map_eq_some_iff.1 h
    cases h
    obtain ⟨rfl, -⟩ := takeCount_some hn
    obtain ⟨rfl, rfl⟩ := takeBytes_some hx
    simp only [encode, List.cons_append, List.append_assoc]
  · cases (takeOperands_wavToUlaw bs).symm.trans h
    rfl
  · cases (takeOperands_illegal hop bs).symm.trans h
    rfl

theorem decode_eq_encode_append {bs rest : List Byte} {i : Instr} (h : decode bs = .whole i rest) :
    bs = encode i ++ rest := by
  cases bs with
  | nil => cases h
  | cons op bs => exact takeOperands_eq_encode (decode_whole_iff.1 h)

theorem decode_whole_iff_encode {bs rest : List Byte} {i : Instr} :
    decode bs = .whole i rest ↔ i.wellFormed = true ∧ bs = encode i ++ rest := by
  constructor
  · exact fun h => ⟨decode_wellFormed h, decode_eq_encode_append h⟩
  · rintro ⟨hform, rfl⟩
    exact decode_encode_append i rest hform

theorem decode_empty_iff {bs : List Byte} : decode bs = .empty ↔ bs = [] := by
  cases bs with
  | nil => exact iff_of_true rfl rfl
  | cons op bs =>
    rw [decode_cons]
    split <;> simp

/-! ### The length in the header (rules R68 and R73) -/

theorem commandLength_encode_append (i : Instr) (h : i.wellFormed = true) (rest : List Byte) :
    commandLength (encode i ++ rest) = some (encode i).length := by
  cases i with
  | ulawEnc x => exact Laws.EncodeLength.ulawEnc x h rest
  | ulawEncSeq xs => exact Laws.EncodeLength.ulawEncSeq xs h rest
  | chunkFind id => exact Laws.EncodeLength.chunkFind id h rest
  | dataExtract => exact Laws.EncodeLength.dataExtract h rest
  | pcmUnpack bs => exact Laws.EncodeLength.pcmUnpack bs h rest
  | wavToUlaw => exact Laws.EncodeLength.wavToUlaw h rest
  | illegal op => exact Laws.EncodeLength.illegal op h rest

/-- The length in the header is the number of bytes that the decoder consumes. -/
theorem commandLength_of_whole {bs rest : List Byte} {i : Instr} (h : decode bs = .whole i rest) :
    commandLength bs = some (encode i).length ∧ (encode i).length + rest.length = bs.length := by
  obtain ⟨hform, rfl⟩ := decode_whole_iff_encode.1 h
  exact ⟨commandLength_encode_append i hform rest, List.length_append.symm⟩

/-- The length of a command with no count field is in its first byte. -/
theorem commandLength_of_fixed {op : Byte} (bs : List Byte)
    (hf : formatOf (opcodeOf op) = .c0 ∨ formatOf (opcodeOf op) = .cs ∨
      formatOf (opcodeOf op) = .ci) : commandLength [op] = commandLength (op :: bs) := by
  obtain hf | hf | hf := hf <;> simp only [commandLength, hf]

theorem takeCount_none_iff {bs : List Byte} : takeCount bs = none ↔ bs.length < 4 := by
  refine ⟨takeCount_none, fun h => ?_⟩
  cases hc : takeCount bs with
  | none => rfl
  | some p =>
    obtain ⟨rfl, -⟩ := takeCount_some hc
    simp only [List.length_append, leBytes_length] at h
    omega

/-- The header is incomplete exactly where a count field has not all arrived. -/
theorem commandLength_none_iff {op : Byte} {bs : List Byte} :
    commandLength (op :: bs) = none ↔
      (formatOf (opcodeOf op) = .cls ∨ formatOf (opcodeOf op) = .clb) ∧ bs.length < 4 := by
  cases hf : formatOf (opcodeOf op) <;> simp [commandLength, hf, takeCount_none_iff]

theorem takeCount_extend {bs rest : List Byte} {n : Nat} (h : takeCount bs = some (n, rest))
    (more : List Byte) : takeCount (bs ++ more) = some (n, rest ++ more) := by
  obtain ⟨rfl, hlt⟩ := takeCount_some h
  rw [List.append_assoc, takeCount_append hlt]

/-- More bytes do not change a length that the header has told. -/
theorem commandLength_extend {bs : List Byte} {n : Nat} (h : commandLength bs = some n)
    (more : List Byte) : commandLength (bs ++ more) = some n := by
  cases bs with
  | nil => cases h
  | cons op bs =>
    cases hf : formatOf (opcodeOf op) <;> simp only [commandLength, hf, List.cons_append] at h ⊢
    case cls | clb =>
      obtain ⟨c, hc, hn⟩ := Option.map_eq_some_iff.1 h
      rw [takeCount_extend hc, Option.map_some, ← hn]
    case c0 | cs | ci => exact h

/-! ### Where the decoder waits (rule R72) -/

theorem takeSample_none {bs : List Byte} (h : takeSample bs = none) : bs.length < 2 := by
  match bs, h with
  | [], _ | [_], _ => simp

theorem takeId_none {bs : List Byte} (h : takeId bs = none) : bs.length < 4 := by
  match bs, h with
  | [], _ | [_], _ | [_, _], _ | [_, _, _], _ => simp

/-- The decoder waits only while fewer bytes have arrived than the header tells. -/
theorem length_lt_of_incomplete {bs : List Byte} {n : Nat} (h : decode bs = .incomplete)
    (hn : commandLength bs = some n) : bs.length < n := by
  cases bs with
  | nil => cases h
  | cons op bs =>
    replace h := decode_incomplete_iff.1 h
    obtain ⟨rfl, -⟩ | ⟨rfl, -⟩ | ⟨rfl, -⟩ | ⟨rfl, -⟩ | ⟨rfl, -⟩ | ⟨rfl, -⟩ | ⟨-, hop⟩ :=
      opcodeOf_cases op
    · have := takeSample_none (Option.map_eq_none_iff.1 h)
      cases hn
      simp only [List.length_cons]
      omega
    · obtain ⟨⟨k, r⟩, hc, rfl⟩ := Option.map_eq_some_iff.1 hn
      rw [takeOperands_ulawEncSeq, hc, Option.bind_some] at h
      have := takeSamples_none (Option.map_eq_none_iff.1 h)
      obtain ⟨rfl, -⟩ := takeCount_some hc
      simp only [List.length_cons, List.length_append, leBytes_length] at *
      omega
    · have := takeId_none (Option.map_eq_none_iff.1 h)
      cases hn
      simp only [List.length_cons]
      omega
    · cases h
    · obtain ⟨⟨k, r⟩, hc, rfl⟩ := Option.map_eq_some_iff.1 hn
      rw [takeOperands_pcmUnpack, hc, Option.bind_some] at h
      have := takeBytes_none (Option.map_eq_none_iff.1 h)
      obtain ⟨rfl, -⟩ := takeCount_some hc
      simp only [List.length_cons, List.length_append, leBytes_length] at *
      omega
    · cases h
    · cases (takeOperands_illegal hop bs).symm.trans h

/-- Every byte list but the empty one begins a whole command, or can be continued to one: four more bytes
complete any header, and then as many as it tells complete the command. -/
theorem exists_whole_extension {bs : List Byte} (hne : bs ≠ []) :
    ∃ more i rest, decode (bs ++ more) = .whole i rest := by
  obtain ⟨op, tl, rfl⟩ := List.exists_cons_of_ne_nil hne
  obtain ⟨n, hn⟩ : ∃ n, commandLength (op :: tl ++ List.replicate 4 0) = some n := by
    refine Option.ne_none_iff_exists'.1 fun hnone => ?_
    have hshort := (commandLength_none_iff.1 hnone).2
    simp only [List.append_eq, List.length_append, List.length_replicate] at hshort
    omega
  replace hn := commandLength_extend hn (List.replicate n 0)
  rw [List.append_assoc] at hn
  refine ⟨List.replicate 4 0 ++ List.replicate n 0, ?_⟩
  cases hd : decode (op :: tl ++ (List.replicate 4 0 ++ List.replicate n 0)) with
  | whole i rest => exact ⟨i, rest, rfl⟩
  | incomplete =>
    have hlt := length_lt_of_incomplete hd hn
    simp only [List.length_append, List.length_replicate] at hlt
    omega
  | empty => simp [decode_empty_iff] at hd

/-- The decoder waits exactly on the proper, non-empty beginnings of commands. -/
theorem decode_incomplete_iff_encode {bs : List Byte} :
    decode bs = .incomplete ↔
      bs ≠ [] ∧ ∃ i more, i.wellFormed = true ∧ more ≠ [] ∧ bs ++ more = encode i := by
  constructor
  · intro h
    have hne : bs ≠ [] := by
      rintro rfl
      cases h
    have hnot (i : Instr) (rest : List Byte) : decode bs ≠ .whole i rest := by simp [h]
    obtain ⟨ext, i, rest, hext⟩ := exists_whole_extension hne
    obtain ⟨hform, heq⟩ := decode_whole_iff_encode.1 hext
    obtain ⟨more, hmore, -⟩ | ⟨r, hr, -⟩ := List.append_eq_append_iff.1 heq
    · refine ⟨hne, i, more, hform, ?_, hmore.symm⟩
      rintro rfl
      exact hnot i [] (decode_whole_iff_encode.2 ⟨hform, by simp [hmore]⟩)
    · exact absurd (decode_whole_iff_encode.2 ⟨hform, hr⟩) (hnot i r)
  · rintro ⟨hne, i, more, hform, hmore, heq⟩
    cases hd : decode bs with
    | whole j r =>
      have hwhole := decode_extend hd more
      rw [heq, ← List.append_nil (encode i), decode_encode_append i [] hform] at hwhole
      simp [hmore] at hwhole
    | incomplete => rfl
    | empty => exact absurd (decode_empty_iff.1 hd) hne

end Sys2Proof
end

section
/-! PROOFS. The statements on the byte forms of the commands (spec/30_encoding.md rules R68 to R73 and
R77). -/

namespace Sys2Proof.Machine

/-- Settles O13: each operand is taken back from the front of the bytes that encode it. -/
theorem decodeOfEncodeIsTheCommand : Obligations.DecodeOfEncodeIsTheCommand :=
  decode_encode_append

/-- Settles O14: what is taken from the front of the bytes is the encoding of what it is taken as. -/
theorem decodedBytesAreTheEncoding : Obligations.DecodedBytesAreTheEncoding :=
  fun _ _ _ h => (decode_whole_iff_encode.1 h).symm

/-- Settles O15: the three results are characterised by `decode_whole_iff_encode`,
`decode_incomplete_iff_encode` and `decode_empty_iff`, and an issue needs the first of them. -/
theorem decoderHasThreeResults : Obligations.DecoderHasThreeResults := by
  intro bs
  refine ⟨exists_congr fun i => exists_congr fun rest => decode_whole_iff_encode,
    decode_incomplete_iff_encode, decode_empty_iff, ?_⟩
  rintro hd s ms rfl hm
  rw [step_of_moves_cons hm]
  by_cases hp : s.pending = none
  · exact ⟨_, doIssue_of_incomplete (s := s.withMoves ms) hp hd⟩
  · exact ⟨_, doIssue_of_pending (s := s.withMoves ms) hp⟩

/-- A length that the bytes tell is told by the first five of them, since no header is longer. -/
theorem commandLength_take_five {bs : List Byte} {n : Nat} (h : commandLength bs = some n) :
    commandLength (bs.take 5) = some n := by
  cases bs with
  | nil => cases h
  | cons op bs =>
    cases h5 : commandLength ((op :: bs).take 5) with
    | some k =>
      have hk := commandLength_extend h5 ((op :: bs).drop 5)
      rw [List.take_append_drop, h] at hk
      exact hk.symm
    | none =>
      obtain ⟨hf, hlen⟩ := (commandLength_none_iff (bs := bs.take 4)).1 h5
      have hshort : bs.length < 4 := by
        rw [List.length_take] at hlen
        omega
      cases h.symm.trans (commandLength_none_iff.2 ⟨hf, hshort⟩)

/-- Settles O16: the header tells the length of the byte form, and the first byte or the first five bytes
hold the header. -/
theorem lengthFollowsFromTheHeader : Obligations.LengthFollowsFromTheHeader := by
  refine ⟨fun bs i rest hd => ?_, fun _ => rfl, fun xs => ?_, fun _ => rfl, rfl, fun bs => ?_, rfl,
    fun _ => rfl⟩
  · obtain ⟨hn, hlen⟩ := commandLength_of_whole hd
    refine ⟨_, hn, hlen, commandLength_take_five hn, ?_⟩
    cases bs with
    | nil => cases hd
    | cons op bs =>
      refine ⟨fun hf => (commandLength_of_fixed bs hf).trans hn, fun hf k hk => ?_⟩
      cases k with
      | zero => rfl
      | succ k =>
        have hshort : (bs.take k).length < 4 := (List.length_take_le k bs).trans_lt hk
        exact commandLength_none_iff.2 ⟨hf, hshort⟩
  · simp only [encode, List.length_cons, List.length_append, leBytes_length,
      flatMap_sampleBytes_length]
    omega
  · simp only [encode, List.length_cons, List.length_append, leBytes_length]
    omega

/-- Settles O11: each word is the byte form of the command it stands for, the last one followed by three
more bytes. -/
theorem wordsOfTheSpecDecode : Obligations.WordsOfTheSpecDecode :=
  ⟨decode_encode_append (.ulawEnc 0x8000#16) [] rfl,
    decode_encode_append (.ulawEncSeq [10000#16]) [] rfl, decode_encode_append findData [] rfl, rfl,
    rfl, decode_encode_append .dataExtract [] rfl,
    decode_encode_append (.pcmUnpack [0x34#8, 0x12#8]) [] rfl,
    decode_encode_append .wavToUlaw [] rfl, decode_encode_append (.illegal 0x07#8) _ rfl⟩

/-- Settles O12: each of the 256 bytes is held against the thirteen rows. -/
theorem everyByteMatchesOneTableRow : Obligations.EveryByteMatchesOneTableRow := by
  unfold Obligations.EveryByteMatchesOneTableRow
  decide +kernel

/-- Settles O17: the byte form of `ILLEGAL` is its reserved byte, and its `perform` raises the status. -/
theorem reservedBytesAreIllegalCommands : Obligations.ReservedBytesAreIllegalCommands := by
  intro op rest s hop
  have hreserved : reservedByte op = true := by simpa [reservedByte] using hop
  exact ⟨decode_encode_append (.illegal op) rest hreserved, rfl, rfl⟩

end Sys2Proof.Machine
end

section
/-! PROOFS. The forms of the responses, and reading a response back from its bytes (spec/30_encoding.md
rules R66, R74 and R75). -/

namespace Sys2Proof.Machine

/-! ### The form of each command's response -/

/-- The responses that a command can have: an error status alone, or `OK` and a result of the command's
form (rules R74 and R75). -/
inductive ResponseForm : Instr → Response → Prop
  | error {i : Instr} {st : Status} (h : st ≠ .ok) : ResponseForm i ⟨st, none⟩
  | ulawEnc {x : Sample} {b : Byte} : ResponseForm (.ulawEnc x) ⟨.ok, some (.code b)⟩
  | ulawEncSeq {xs : List Sample} {bs : List Byte} :
      ResponseForm (.ulawEncSeq xs) ⟨.ok, some (.codes bs)⟩
  | chunkFind {id : ChunkId} {o : Option Nat} : ResponseForm (.chunkFind id) ⟨.ok, some (.offset o)⟩
  | dataExtract {start size : Nat} : ResponseForm .dataExtract ⟨.ok, some (.extent start size)⟩
  | pcmUnpack {bs : List Byte} {xs : List Sample} :
      ResponseForm (.pcmUnpack bs) ⟨.ok, some (.samples xs)⟩
  | wavToUlaw {bs : List Byte} : ResponseForm .wavToUlaw ⟨.ok, some (.codes bs)⟩

theorem ResponseForm.result_none_iff {i : Instr} {r : Response} (h : ResponseForm i r) :
    r.result = none ↔ r.status ≠ .ok := by
  cases h with
  | error hst => exact iff_of_true rfl hst
  | ulawEnc | ulawEncSeq | chunkFind | dataExtract | pcmUnpack | wavToUlaw => simp

/-- What the extractor fails with is an error status, on any list of cells (rule R205). -/
theorem extractData_failed_ne_ok {lastWindow : Bool} {m : Memory} {st : Status}
    (h : extractData lastWindow m = .ok (.failed st)) : st ≠ .ok := by
  unfold extractData at h
  split at h
  · cases h
  · cases h
    decide
  · split at h
    · cases h
      decide
    · split at h
      · cases h
      · split at h
        · cases h
          decide
        · cases h

theorem chunkFindResponse_form {lastWindow : Bool} {id : ChunkId} {m : Memory} {r : Response}
    (h : chunkFindResponse lastWindow id m = .ok r) : ResponseForm (.chunkFind id) r := by
  cases hf : findChunk lastWindow m id with
  | error f =>
    simp only [chunkFindResponse, hf] at h
    cases h
  | ok o =>
    cases (chunkFindResponse_of_ok hf).symm.trans h
    exact .chunkFind

theorem dataExtractResponse_form {lastWindow : Bool} {m : Memory} {r : Response}
    (h : dataExtractResponse lastWindow m = .ok r) : ResponseForm .dataExtract r := by
  unfold dataExtractResponse at h
  split at h
  · cases h
  · rename_i hx
    cases h
    exact .error (extractData_failed_ne_ok hx)
  · cases h
    exact .dataExtract

theorem wavToUlawResponse_form {lastWindow : Bool} {seg0Shift : Nat} {m : Memory} {r : Response}
    (h : wavToUlawResponse lastWindow seg0Shift m = .ok r) : ResponseForm .wavToUlaw r := by
  unfold wavToUlawResponse at h
  split at h
  · cases h
  · rename_i hx
    cases h
    exact .error (extractData_failed_ne_ok hx)
  · split at h
    · cases h
    · cases h
      exact .wavToUlaw

/-- Whatever the command, the configuration and the state, a `perform` that answers gives a response of
the command's form and does nothing else. -/
theorem execWith_next_form {c : Config} {i : Instr} {s t : State} (h : execWith c i s = .next t) :
    ∃ r, t = s.answer r ∧ ResponseForm i r := by
  cases i with
  | ulawEnc x => exact ⟨_, respond_next h, .ulawEnc⟩
  | ulawEncSeq xs => exact ⟨_, respond_next h, .ulawEncSeq⟩
  | chunkFind id =>
    obtain ⟨m, r, -, hr, ht⟩ := onBuffer_next h
    exact ⟨r, ht, chunkFindResponse_form hr⟩
  | dataExtract =>
    obtain ⟨m, r, -, hr, ht⟩ := onBuffer_next h
    exact ⟨r, ht, dataExtractResponse_form hr⟩
  | pcmUnpack bs => exact ⟨_, respond_next h, .pcmUnpack⟩
  | wavToUlaw =>
    obtain ⟨m, r, -, hr, ht⟩ := onBuffer_next h
    exact ⟨r, ht, wavToUlawResponse_form hr⟩
  | illegal op => exact ⟨_, raise_next h, .error (by decide)⟩

/-! ### Reading each field back -/

theorem statusOfByte_statusByte (st : Status) : statusOfByte (statusByte st) = some st := by
  cases st <;> rfl

theorem codesOfBytes_append {bs : List Byte} (h : bs.length < 2 ^ 32) :
    codesOfBytes (leBytes 4 bs.length ++ bs) = some bs := by
  have htake : takeBytes bs.length bs = some (bs, []) := by simpa using takeBytes_append bs []
  simp [codesOfBytes, takeCount_append h, htake]

theorem samplesOfBytes_append {xs : List Sample} (h : xs.length < 2 ^ 32) :
    samplesOfBytes (leBytes 4 xs.length ++ xs.flatMap sampleBytes) = some xs := by
  have htake : takeSamples xs.length (xs.flatMap sampleBytes) = some (xs, []) := by
    simpa using takeSamples_append xs []
  simp [samplesOfBytes, takeCount_append h, htake]

/-- An address or an offset below `2^63` fits the 8-byte field (rule R66). -/
theorem ofLeBytes_leBytes_eight {n : Nat} (h : n < 2 ^ 63) : ofLeBytes (leBytes 8 n) = n :=
  ofLeBytes_leBytes_of_lt (h.trans (by norm_num))

/-- A size or a count below `2^32` fits the 4-byte field (rule R74). -/
theorem ofLeBytes_leBytes_four {n : Nat} (h : n < 2 ^ 32) : ofLeBytes (leBytes 4 n) = n :=
  ofLeBytes_leBytes_of_lt (h.trans_eq (by norm_num))

theorem offsetOfBytes_offsetBytes {o : Option Nat} (h : ∀ n, o = some n → n < 2 ^ 63) :
    offsetOfBytes (offsetBytes o) = some o := by
  cases o with
  | none => decide
  | some n =>
    have hn := h n rfl
    have hne : n ≠ 2 ^ 64 - 1 := by omega
    simp only [offsetOfBytes, offsetBytes, leBytes_length, ofLeBytes_leBytes_eight hn, if_true,
      if_neg hne, if_pos hn]

theorem resultOfBytes_extent {start size : Nat} (hstart : start < 2 ^ 63) (hsize : size < 2 ^ 32) :
    resultOfBytes .dataExtract (leBytes 8 start ++ leBytes 4 size) = some (.extent start size) := by
  simp [resultOfBytes, ofLeBytes_leBytes_eight hstart, ofLeBytes_leBytes_four hsize]

/-! ### Reading a response back -/

theorem responseOfBytes_error {i : Instr} {st : Status} (h : st ≠ .ok) :
    responseOfBytes i (responseBytes ⟨st, none⟩) = some ⟨st, none⟩ := by
  simp [responseOfBytes, responseBytes, statusOfByte_statusByte, h]

theorem responseOfBytes_ok {i : Instr} {v : Result} (h : resultOfBytes i (resultBytes v) = some v) :
    responseOfBytes i (responseBytes ⟨.ok, some v⟩) = some ⟨.ok, some v⟩ := by
  simp [responseOfBytes, responseBytes, statusOfByte_statusByte, h]

/-- A response of a command's form whose numbers fit their fields is read back from its bytes. -/
theorem responseOfBytes_responseBytes {i : Instr} {r : Response} (h : ResponseForm i r)
    (hfits : responseFits r = true) : responseOfBytes i (responseBytes r) = some r := by
  cases h with
  | error hst => exact responseOfBytes_error hst
  | ulawEnc => exact responseOfBytes_ok rfl
  | ulawEncSeq | wavToUlaw =>
    have hlen := of_decide_eq_true hfits
    exact responseOfBytes_ok (congrArg (Option.map _) (codesOfBytes_append hlen))
  | @chunkFind id o =>
    have hoff : ∀ n, o = some n → n < 2 ^ 63 := by
      rintro n rfl
      exact of_decide_eq_true hfits
    exact responseOfBytes_ok (congrArg (Option.map _) (offsetOfBytes_offsetBytes hoff))
  | dataExtract =>
    obtain ⟨hstart, hsize⟩ := Bool.and_eq_true_iff.1 hfits
    exact responseOfBytes_ok
      (resultOfBytes_extent (of_decide_eq_true hstart) (of_decide_eq_true hsize))
  | pcmUnpack =>
    have hlen := of_decide_eq_true hfits
    exact responseOfBytes_ok (congrArg (Option.map _) (samplesOfBytes_append hlen))

end Sys2Proof.Machine
end

section
/-! PROOFS. The statements on the responses and their byte forms (spec/30_encoding.md rules R66, R74 and
R75). -/

namespace Sys2Proof.Machine

/-- Settles O55: from a sound state the response fits its fields, and it has the form that the Host
expects of the command it sent. -/
theorem responseBytesReadBack : Obligations.ResponseBytesReadBack := by
  intro i s t r hinv hp h hr
  rw [← execWith_hw] at h
  obtain ⟨r', rfl, hform⟩ := execWith_next_form h
  obtain rfl : r' = r := Option.some.inj hr
  exact responseOfBytes_responseBytes hform ((execWith_keeps_invFor hw_legal hinv hp h).respForm _ hr)

/-- Settles O43: every form of response has a result exactly when its status is `OK`. -/
theorem resultIsNoneExactlyOnErrors : Obligations.ResultIsNoneExactlyOnErrors := by
  intro i s t h
  rw [← execWith_hw] at h
  obtain ⟨r, rfl, hform⟩ := execWith_next_form h
  exact ⟨r, rfl, rfl, hform.result_none_iff⟩

/-- Sample `k` of a response is the little-endian pair at bytes `2k` and `2k + 1` of the samples' bytes. -/
theorem byteVal_flatMap_sampleBytes {xs : List Sample} {k : Nat} {x : Sample} (h : xs[k]? = some x) :
    byteVal (xs.flatMap sampleBytes) (2 * k) + 256 * byteVal (xs.flatMap sampleBytes) (2 * k + 1) =
      x.toNat := by
  rw [← unpack_flatMap_sampleBytes xs] at h
  obtain ⟨lo, hi, hlo, hhi, rfl⟩ := unpack_getElem? _ k x h
  rw [byteVal_of_getElem? hlo, byteVal_of_getElem? hhi, sampleOf_toNat]

/-- Settles O54: each clause is the byte form of one form of result. -/
theorem responseLayouts : Obligations.ResponseLayouts := by
  refine ⟨fun st => rfl, fun b => rfl, fun bs hlen => ?_, rfl, fun o ho => ?_,
    fun start size hstart hsize => ?_, fun xs hlen => ?_⟩
  · obtain ⟨n0, n1, n2, n3, hbytes, hval⟩ := leBytes_four bs.length hlen
    refine ⟨n0, n1, n2, n3, ?_, (le32_eq n0 n1 n2 n3).symm.trans hval⟩
    rw [List.cons_append, ← hbytes]
    rfl
  · exact ⟨leBytes 8 o, rfl, leBytes_length 8 o, ofLeBytes_leBytes_eight ho⟩
  · exact ⟨leBytes 8 start, leBytes 4 size, rfl, leBytes_length 8 start, leBytes_length 4 size,
      ofLeBytes_leBytes_eight hstart, ofLeBytes_leBytes_four hsize⟩
  · exact ⟨leBytes 4 xs.length, xs.flatMap sampleBytes, rfl, leBytes_length 4 xs.length,
      ofLeBytes_leBytes_four hlen, flatMap_sampleBytes_length xs,
      fun _ _ => byteVal_flatMap_sampleBytes⟩

end Sys2Proof.Machine
end

section
/-! PROOFS. The fields of the output byte, and which bytes occur (spec/30_encoding.md rules R63 and
R78). -/

namespace Sys2Proof.Machine

/-- Settles O25: the output byte is 255 minus the code, whose three fields do not overlap, so each field
is subtracted from its own largest value. -/
theorem outputByteFields : Obligations.OutputByteFields := by
  intro shift x _
  obtain ⟨hlo, hhi⟩ := biased_range (magnitude x)
  have hseg := (segment_bounds hlo hhi).1
  have hman := mantissa_le shift (segment (biased (magnitude x))) (biased (magnitude x))
  rw [enc1_toNat, ulawCode_eq, signBit]
  dsimp only
  split <;> omega

/-- A sample that has output byte `b`, where one has it at this `SEG0_SHIFT`: its biased magnitude is
the upper end of the interval of rule R154. -/
def preimage (shift : Nat) (b : Byte) : Sample :=
  let code := 255 - b.toNat
  let seg := code / 16 % 8
  let man := code % 16
  let m := if shift = 4 ∧ seg = 0 then 16 * man + 15 else (man + 17) * 2 ^ (seg + 3) - 1
  let mag : Int := m - bias
  BitVec.ofInt 16 (if 128 ≤ code then -mag else mag)

theorem enc1_preimage_three : ∀ b : Byte, enc1 3 (preimage 3 b) = b := by
  decide +kernel

theorem enc1_preimage_four : ∀ b : Byte, ¬ ((0x78 ≤ b.toNat ∧ b.toNat ≤ 0x7F) ∨ 0xF8 ≤ b.toNat) →
    enc1 4 (preimage 4 b) = b := by
  decide +kernel

/-- In segment 0 a shift by 4 keeps the leading bit of `m` in the mantissa (rules R145 and R154). -/
theorem eight_le_mantissa_four {m : Nat} (hlo : 132 ≤ m) (hhi : m ≤ 32767) (hseg : segment m = 0) :
    8 ≤ mantissa 4 (segment m) m := by
  obtain ⟨-, -, hlt⟩ := segment_bounds hlo hhi
  rw [hseg] at hlt ⊢
  rw [mantissa, if_pos rfl, show 0x0F = 2 ^ 4 - 1 from rfl, Nat.and_two_pow_sub_one_eq_mod,
    Nat.shiftRight_eq_div_pow]
  omega

/-- Settles O30: every byte that the statement allows has a preimage, and at `SEG0_SHIFT = 4` the sixteen
others would need a segment 0 with a mantissa below 8. -/
theorem everyOutputByteOccurs : Obligations.EveryOutputByteOccurs := by
  refine ⟨fun b => ⟨_, enc1_preimage_three b⟩, fun b => ⟨?_, fun h => ⟨_, enc1_preimage_four b h⟩⟩⟩
  rintro ⟨x, rfl⟩ hgap
  obtain ⟨-, hsegField, hmanField⟩ := outputByteFields 4 x (.inr rfl)
  obtain ⟨hlo, hhi⟩ := biased_range (magnitude x)
  have hseg := (segment_bounds hlo hhi).1
  have hman := eight_le_mantissa_four hlo hhi
  omega

end Sys2Proof.Machine
end

section
/-! PROOFS. The ChunkLocator: the first match on an attached buffer, and what the scan reads of any list
of cells (spec/40_chunk_locator.md rules R100 to R109). -/

namespace Sys2Proof.Machine

variable {lastWindow : Bool} {m m' : Memory} {id : ChunkId} {n i : Nat}

/-! ### The answer on an attached buffer -/

/-- Settles O33. -/
theorem scanFindsTheFirstMatchInBothConfigurations :
    Obligations.ScanFindsTheFirstMatchInBothConfigurations :=
  fun lastWindow id bytes => findChunk_eq_some_and_none_iff lastWindow bytes id

/-- Settles O32: the scan at `SCAN_LAST_WINDOW = false` always answers, and its answer is the command's. -/
theorem chunkFindReturnsTheFirstMatch : Obligations.ChunkFindReturnsTheFirstMatch := by
  intro id bytes s hbuf
  obtain ⟨o, ho, hiff⟩ := findChunk_eq_some_and_none_iff false bytes id
  exact ⟨o, onBuffer_ok hbuf (chunkFindResponse_of_ok ho), hiff⟩

/-- Settles O37: with the id at candidate `i` the answer is not NotFound, and the least match is no later
than `i`. -/
theorem falseMatchesAreReproduced : Obligations.FalseMatchesAreReproduced := by
  intro id bytes s i hbuf hstart hlt htag
  have hcand : candidateAt false bytes.length i := ⟨hstart, .inl hlt⟩
  obtain ⟨o, hexec, hsome, hnone⟩ := chunkFindReturnsTheFirstMatch id bytes s hbuf
  cases o with
  | none => exact absurd htag (hnone.1 rfl i hcand)
  | some j =>
    obtain ⟨-, htagj, hleast⟩ := (hsome j).1 rfl
    exact ⟨j, Nat.not_lt.1 fun hij => hleast i hij hcand htag, htagj, hexec⟩

/-! ### The scan of any list of cells -/

theorem scanGuard_false_iff {len : Nat} : scanGuard false len i = true ↔ i + 4 < len := by
  simp [scanGuard_iff]

theorem scanGuard_true_iff {len : Nat} : scanGuard true len i = true ↔ i + 4 ≤ len := by
  simp [scanGuard_iff, Nat.le_iff_lt_or_eq]

theorem add_four_le_of_scanGuard {len : Nat} (h : scanGuard lastWindow len i = true) :
    i + 4 ≤ len := by
  rw [scanGuard_iff] at h
  omega

/-- Past the last candidate the scan answers NotFound without a read, whatever its allowance. -/
theorem scanFrom_of_scanGuard_eq_false (h : scanGuard lastWindow m.length i = false) :
    scanFrom lastWindow m id n i = .ok none := by
  cases n with
  | zero => rfl
  | succ n => simp [scanFrom, h]

/-- The scan is the same on two lists of one length whose windows compare the same at every candidate. -/
theorem scanFrom_congr (hlen : m.length = m'.length)
    (h : ∀ j, i ≤ j → scanGuard lastWindow m.length j = true →
      windowMatches m id j = windowMatches m' id j) :
    scanFrom lastWindow m id n i = scanFrom lastWindow m' id n i := by
  induction n generalizing i with
  | zero => rfl
  | succ n ih =>
    cases hg : scanGuard lastWindow m.length i with
    | false =>
      rw [scanFrom_of_scanGuard_eq_false hg, scanFrom_of_scanGuard_eq_false (hlen ▸ hg)]
    | true =>
      have hrest := ih fun j hj => h j (Nat.le_of_succ_le hj)
      simp only [scanFrom, ← hlen, h i le_rfl hg, hrest]

/-- The scan faults only where the comparison of some candidate's window does. -/
theorem scanFrom_ok (h : ∀ j, i ≤ j → scanGuard lastWindow m.length j = true →
      ∃ b, windowMatches m id j = .ok b) :
    ∃ o, scanFrom lastWindow m id n i = .ok o := by
  induction n generalizing i with
  | zero => exact ⟨none, rfl⟩
  | succ n ih =>
    cases hg : scanGuard lastWindow m.length i with
    | false => exact ⟨none, scanFrom_of_scanGuard_eq_false hg⟩
    | true =>
      obtain ⟨b, hb⟩ := h i le_rfl hg
      cases b with
      | true => exact ⟨some i, by simp [scanFrom, hg, hb]⟩
      | false => simpa [scanFrom, hg, hb] using ih fun j hj => h j (Nat.le_of_succ_le hj)

/-- An allowance that reaches past the last candidate is enough: a larger one changes nothing. -/
theorem scanFrom_add (hend : scanGuard lastWindow m.length (i + n) = false) (k : Nat) :
    scanFrom lastWindow m id (n + k) i = scanFrom lastWindow m id n i := by
  induction n generalizing i with
  | zero =>
    rw [Nat.add_zero] at hend
    rw [scanFrom_of_scanGuard_eq_false hend, scanFrom_of_scanGuard_eq_false hend]
  | succ n ih =>
    have hrest := ih (i := i + 1) (by rwa [Nat.add_assoc, Nat.add_comm 1 n])
    simp only [Nat.succ_add n k, scanFrom, hrest]

theorem scanFrom_eq_findChunk (hend : scanGuard lastWindow m.length (12 + n) = false) :
    scanFrom lastWindow m id n 12 = findChunk lastWindow m id := by
  have hlen : scanGuard lastWindow m.length (12 + m.length) = false :=
    Bool.eq_false_iff.2 fun hg => by
      have := add_four_le_of_scanGuard hg
      omega
  rcases Nat.le_total n m.length with h | h <;> obtain ⟨k, hk⟩ := Nat.exists_eq_add_of_le h
  · rw [findChunk, hk]
    exact (scanFrom_add hend k).symm
  · rw [hk]
    exact scanFrom_add hlen k

/-- Settles O36: past `L - 16` candidates, or `L - 15`, the loop condition fails. -/
theorem scanIsBounded : Obligations.ScanIsBounded := by
  refine fun id m n => ⟨fun hn => ?_, fun hn => ?_⟩
  · exact scanFrom_eq_findChunk (Bool.eq_false_iff.2 (mt scanGuard_false_iff.1 (by omega)))
  · exact scanFrom_eq_findChunk (Bool.eq_false_iff.2 (mt scanGuard_true_iff.1 (by omega)))

/-- Settles O34: in a short buffer the first candidate already fails the loop condition. -/
theorem shortBuffersAreNotRead : Obligations.ShortBuffersAreNotRead := by
  refine fun id m => ⟨fun hshort => ?_, fun hshort => ?_⟩ <;>
    refine scanFrom_of_scanGuard_eq_false (Bool.eq_false_iff.2 ?_)
  · exact mt scanGuard_false_iff.1 (by rw [scanStart]; omega)
  · exact mt scanGuard_true_iff.1 (by rw [scanStart]; omega)

/-! ### The reads of a window -/

/-- A window is compared by reading its four bytes and nothing else (rule R103). -/
theorem windowMatches_congr (h : ∀ k, k < 4 → memRead m (i + k) = memRead m' (i + k)) :
    windowMatches m id i = windowMatches m' id i := by
  have h0 : memRead m i = memRead m' i := h 0 (by omega)
  simp only [windowMatches, h0, h 1 (by omega), h 2 (by omega), h 3 (by omega)]

theorem windowMatches_ok (h : ∀ k, k < 4 → ∃ b, memRead m (i + k) = .ok b) :
    ∃ b, windowMatches m id i = .ok b := by
  obtain ⟨b0, h0⟩ := h 0 (by omega)
  obtain ⟨b1, h1⟩ := h 1 (by omega)
  obtain ⟨b2, h2⟩ := h 2 (by omega)
  obtain ⟨b3, h3⟩ := h 3 (by omega)
  rw [Nat.add_zero] at h0
  simp only [windowMatches, h0, h1, h2, h3]
  exact ⟨_, rfl⟩

theorem memRead_memoryOf_congr {bytes bytes' : List Byte} {a : Nat} (h : bytes[a]? = bytes'[a]?) :
    memRead (memoryOf bytes) a = memRead (memoryOf bytes') a := by
  rw [memRead_memoryOf, memRead_memoryOf, h]

/-- `CHUNK_FIND` does not fault where every byte of every candidate's window exists. -/
theorem findChunk_ok (h : ∀ j, 12 ≤ j → scanGuard lastWindow m.length j = true →
      ∀ k, k < 4 → ∃ b, memRead m (j + k) = .ok b) :
    ∃ o, findChunk lastWindow m id = .ok o :=
  scanFrom_ok fun j hj hg => windowMatches_ok (h j hj hg)

/-- `CHUNK_FIND` depends on the bytes of the candidates' windows alone. -/
theorem findChunk_memoryOf_congr {bytes bytes' : List Byte} (hlen : bytes.length = bytes'.length)
    (h : ∀ j, 12 ≤ j → scanGuard lastWindow bytes.length j = true →
      ∀ k, k < 4 → bytes[j + k]? = bytes'[j + k]?) :
    findChunk lastWindow (memoryOf bytes) id = findChunk lastWindow (memoryOf bytes') id := by
  have hlen' : (memoryOf bytes).length = (memoryOf bytes').length := by
    rwa [memoryOf_length, memoryOf_length]
  rw [findChunk, findChunk, ← hlen']
  refine scanFrom_congr hlen' fun j hj hg => windowMatches_congr fun k hk => ?_
  exact memRead_memoryOf_congr (h j hj (memoryOf_length bytes ▸ hg) k hk)

/-- The window of a candidate ends before the last byte (rule R107). -/
theorem window_lt_of_scanGuard_false {len k : Nat} (hg : scanGuard false len i = true) (hk : k < 4) :
    i + k + 1 < len := by
  have := scanGuard_false_iff.1 hg
  omega

theorem window_lt_of_scanGuard {len k : Nat} (hg : scanGuard lastWindow len i = true) (hk : k < 4) :
    i + k < len := by
  have := add_four_le_of_scanGuard hg
  omega

/-- Settles O35: the last byte of a candidate's window is at most `L - 2`, or `L - 1` with
`SCAN_LAST_WINDOW`. -/
theorem scanReadsOnlyItsWindow : Obligations.ScanReadsOnlyItsWindow := by
  refine ⟨fun id m => ⟨fun h => ?_, fun h => ?_⟩,
    fun id bytes bytes' hlen => ⟨fun h => ?_, fun h => ?_⟩⟩
  · exact findChunk_ok fun j hj hg k hk =>
      h (j + k) (Nat.le_add_right_of_le hj) (window_lt_of_scanGuard_false hg hk)
  · exact findChunk_ok fun j hj hg k hk =>
      h (j + k) (Nat.le_add_right_of_le hj) (window_lt_of_scanGuard hg hk)
  · exact findChunk_memoryOf_congr hlen fun j hj hg k hk =>
      h (j + k) (Nat.le_add_right_of_le hj) (window_lt_of_scanGuard_false hg hk)
  · exact findChunk_memoryOf_congr hlen fun j hj hg k hk =>
      h (j + k) (Nat.le_add_right_of_le hj) (window_lt_of_scanGuard hg hk)

end Sys2Proof.Machine
end

section
/-! PROOFS. The DataChunkExtractor and the PCM assembly: the checks of `DATA_EXTRACT` in their order, and
the samples of `PCM_UNPACK` (spec/41_data_extract.md rules R120 to R128). -/

namespace Sys2Proof.Machine

/-- Where the extractor fails on this hardware, `DATA_EXTRACT` answers its status alone (rule R120). -/
theorem exec_dataExtract_of_failed {s : State} {m : Memory} {st : Status} (hm : s.buf = some m)
    (h : extractData false m = .ok (.failed st)) :
    exec .dataExtract s = .next (s.answer ⟨st, none⟩) :=
  onBuffer_ok hm (dataExtractResponse_of_failed h)

/-- Where every check passes, `DATA_EXTRACT` on this hardware answers the payload's place (rule R120). -/
theorem exec_dataExtract_of_payload {s : State} {m : Memory} {start size : Nat} (hm : s.buf = some m)
    (h : extractData false m = .ok (.payload start size)) :
    exec .dataExtract s = .next (s.answer ⟨.ok, some (.extent start size)⟩) :=
  onBuffer_ok hm (dataExtractResponse_of_payload h)

/-- Settles O38: each clause is one answer of the extractor, whose scan this hardware runs without the
last window; the size field and the payload are the two ways to be truncated. -/
theorem dataExtractChecksInOrder : Obligations.DataExtractChecksInOrder := by
  intro bytes s hbuf
  refine ⟨fun hno => ?noTag, fun o hfirst hshort => ?noSizeField, fun o hfirst _ hpast => ?pastTheEnd,
    fun o hfirst hin => ?inside⟩
  case noTag => exact exec_dataExtract_of_failed hbuf (extractData_of_noTag hno)
  case noSizeField =>
    exact exec_dataExtract_of_failed hbuf (extractData_of_truncated hfirst (.inl hshort))
  case pastTheEnd =>
    exact exec_dataExtract_of_failed hbuf (extractData_of_truncated hfirst (.inr hpast))
  case inside => exact exec_dataExtract_of_payload hbuf (extractData_of_inside hfirst hin)

/-- Sample `k` of a byte list is the value of the pair at bytes `2k` and `2k + 1` (rules R126 and R128): the
list is the slice of itself that starts at 0. -/
theorem unpack_toInt {bs : List Byte} {k : Nat} {x : Sample} (h : (unpack bs)[k]? = some x) :
    x.toInt = sext16 (byteVal bs (2 * k) + 256 * byteVal bs (2 * k + 1)) := by
  have hslice : (unpack ((bs.drop 0).take bs.length))[k]? = some x := by
    rwa [List.drop_zero, List.take_length]
  simpa only [Nat.zero_add] using unpack_slice_toInt hslice

/-- Settles O39: the command answers `unpack bs` by definition; its length drops an odd last byte. -/
theorem pcmUnpackPairsBytes : Obligations.PcmUnpackPairsBytes :=
  fun bs _ => ⟨unpack bs, rfl, unpack_length bs, fun _ _ => unpack_toInt⟩

end Sys2Proof.Machine
end

section
/-! PROOFS. The magnitude, the segment and the mantissa in closed form, and that segment and mantissa grow
with the biased magnitude (spec/42_ulaw_encoder.md rules R140, R141, R144, R145 and R152 to R155). -/

namespace Sys2Proof.Machine

/-! ### Sign and magnitude (rules R140 and R141) -/

theorem signBit_of_neg {x : Sample} (h : x.toInt < 0) : signBit x = 128 := if_pos h

theorem signBit_of_nonneg {x : Sample} (h : 0 ≤ x.toInt) : signBit x = 0 := if_neg (Int.not_lt.mpr h)

theorem signBit_congr {x y : Sample} (h : x.toInt < 0 ↔ y.toInt < 0) : signBit x = signBit y :=
  if_congr h rfl rfl

theorem magnitude_eq_natAbs (x : Sample) : magnitude x = x.toInt.natAbs := by
  unfold magnitude
  split <;> omega

/-! ### The segment of a biased magnitude (rules R144, R152 and R153) -/

theorem log2_shiftRight_seven_eq_iff {m k : Nat} (hlo : 132 ≤ m) :
    Nat.log2 (m >>> 7) = k ↔ 2 ^ (k + 7) ≤ m ∧ m < 2 ^ (k + 8) := by
  rw [Nat.shiftRight_eq_div_pow, Nat.log2_eq_iff (by omega), Nat.le_div_iff_mul_le (by decide),
    Nat.div_lt_iff_lt_mul (by decide), ← pow_add, ← pow_add]

theorem segment_eq_log2 {m : Nat} (hlo : 132 ≤ m) (hhi : m ≤ 32767) :
    segment m = Nat.log2 (m >>> 7) :=
  ((log2_shiftRight_seven_eq_iff hlo).mpr (segment_bounds hlo hhi).2).symm

/-- The segments partition the biased magnitudes (rule R153). -/
theorem segment_eq_iff {m seg : Nat} (hlo : 132 ≤ m) (hhi : m ≤ 32767) :
    segment m = seg ↔ 2 ^ (seg + 7) ≤ m ∧ m < 2 ^ (seg + 8) := by
  rw [segment_eq_log2 hlo hhi, log2_shiftRight_seven_eq_iff hlo]

/-- The shift of a segment leaves the leading bit of `m` and the four bits below it (rule R154). -/
theorem segment_eq_iff_div {m seg : Nat} (hlo : 132 ≤ m) (hhi : m ≤ 32767) :
    segment m = seg ↔ 16 ≤ m / 2 ^ (seg + 3) ∧ m / 2 ^ (seg + 3) < 32 := by
  rw [segment_eq_iff hlo hhi, Nat.le_div_iff_mul_le (Nat.two_pow_pos _),
    Nat.div_lt_iff_lt_mul (Nat.two_pow_pos _)]
  ring_nf

theorem segment_mono {m n : Nat} (hlo : 132 ≤ m) (hmn : m ≤ n) (hhi : n ≤ 32767) :
    segment m ≤ segment n := by
  obtain ⟨-, hge, -⟩ := segment_bounds hlo (hmn.trans hhi)
  obtain ⟨-, -, hlt⟩ := segment_bounds (hlo.trans hmn) hhi
  have hpow : 2 ^ (segment m + 7) < 2 ^ (segment n + 8) := by omega
  have hexp := (Nat.pow_lt_pow_iff_right (by decide)).mp hpow
  omega

/-! ### The mantissa of a biased magnitude (rules R145 and R154) -/

theorem mantissa_eq (shift seg m : Nat) :
    mantissa shift seg m = if seg = 0 then m / 2 ^ shift % 16 else m / 2 ^ (seg + 3) % 16 := by
  have hmask (n : Nat) : n &&& 0x0F = n % 16 := Nat.and_two_pow_sub_one_eq_mod n 4
  simp only [mantissa, hmask, Nat.shiftRight_eq_div_pow]

/-- At `SEG0_SHIFT = 3` the shift of segment 0 is that of the other segments. -/
theorem mantissa_three_eq (seg m : Nat) : mantissa 3 seg m = m / 2 ^ (seg + 3) % 16 := by
  rw [mantissa_eq]
  split
  · next h => rw [h]
  · rfl

/-- Segment and mantissa together are the five bits from the leading one on (rule R154). -/
theorem segment_and_mantissa_three_iff {m seg k : Nat} (hlo : 132 ≤ m) (hhi : m ≤ 32767) (hk : k ≤ 15) :
    (segment m = seg ∧ mantissa 3 seg m = k) ↔ m / 2 ^ (seg + 3) = 16 + k := by
  rw [segment_eq_iff_div hlo hhi, mantissa_three_eq]
  omega

theorem div_eq_sixteen_add_iff {m seg k : Nat} :
    m / 2 ^ (seg + 3) = 16 + k ↔
      2 ^ (seg + 7) + k * 2 ^ (seg + 3) ≤ m ∧ m ≤ 2 ^ (seg + 7) + (k + 1) * 2 ^ (seg + 3) - 1 := by
  rw [Nat.div_eq_iff (Nat.two_pow_pos _)]
  ring_nf

/-- Within a segment the mantissa grows with the biased magnitude: the bits above it are the same. -/
theorem mantissa_mono {shift m n : Nat} (hshift : shift = 3 ∨ shift = 4) (hlo : 132 ≤ m) (hmn : m ≤ n)
    (hhi : n ≤ 32767) (hseg : segment m = segment n) :
    mantissa shift (segment m) m ≤ mantissa shift (segment n) n := by
  obtain ⟨hmge, -⟩ := (segment_eq_iff_div hlo (hmn.trans hhi)).mp rfl
  obtain ⟨-, hnlt⟩ := (segment_eq_iff_div (hlo.trans hmn) hhi).mp rfl
  rw [hseg] at hmge ⊢
  rw [mantissa_eq, mantissa_eq]
  split
  · next hzero =>
    rw [hzero] at hnlt
    rcases hshift with rfl | rfl <;> omega
  · have hquot := Nat.div_le_div_right (c := 2 ^ (segment n + 3)) hmn
    omega

/-- Segment and mantissa as one number grow with the biased magnitude: in a higher segment the code is
higher whatever the mantissa, and within a segment the mantissa decides. -/
theorem segment_mantissa_mono {shift m n : Nat} (hshift : shift = 3 ∨ shift = 4) (hlo : 132 ≤ m)
    (hmn : m ≤ n) (hhi : n ≤ 32767) :
    16 * segment m + mantissa shift (segment m) m ≤ 16 * segment n + mantissa shift (segment n) n := by
  rcases (segment_mono hlo hmn hhi).lt_or_eq with hlt | heq
  · have hman := mantissa_le shift (segment m) m
    omega
  · have hman := mantissa_mono hshift hlo hmn hhi heq
    omega

end Sys2Proof.Machine
end

section
/-! PROOFS. The statements on the encoder's datapath and its two commands (spec/42_ulaw_encoder.md rules
R140 to R158). -/

namespace Sys2Proof.Machine

/-! ### The datapath in closed form -/

/-- Settles O20: the negation is that of the integer value, so -32768 does not wrap. -/
theorem magnitudeIsHeldWithoutLoss : Obligations.MagnitudeIsHeldWithoutLoss :=
  ⟨fun x => ⟨magnitude_eq_natAbs x, magnitude_le x⟩, by decide, by decide⟩

/-- Settles O22: each field of the code is replaced by its closed form. -/
theorem encoderMatchesItsClosedForm : Obligations.EncoderMatchesItsClosedForm := by
  intro shift x _
  obtain ⟨hlo, hhi⟩ := biased_range (magnitude x)
  rw [enc1_toNat, ulawCode_eq, mantissa_eq, segment_eq_log2 hlo hhi, Nat.shiftRight_eq_div_pow,
    magnitude_eq_natAbs]
  rfl

/-- Settles O23: `m ≥ 132` leaves a bit in `m >> 7`, and the segment is the place of its highest one. -/
theorem segmentIsTheHighestBitPosition : Obligations.SegmentIsTheHighestBitPosition := by
  intro m hlo hhi
  refine ⟨?_, segment_eq_log2 hlo hhi, (segment_bounds hlo hhi).1⟩
  rw [Nat.shiftRight_eq_div_pow]
  omega

/-- Settles O24: at `SEG0_SHIFT = 3` by the five bits that segment and mantissa are; segment 0 is `m < 256`,
where a shift by 4 leaves four bits. -/
theorem mantissaIntervals : Obligations.MantissaIntervals := by
  intro m seg k hlo hhi _ hk
  have hzero : segment m = 0 ↔ m < 256 := by
    rw [segment_eq_iff hlo hhi]
    omega
  have hfour : mantissa 4 0 m = m / 16 % 16 := mantissa_eq 4 0 m
  refine ⟨fun hseg => ?_, ?_, fun hseg => ?_, ?_⟩
  · have hbits := (segment_eq_iff_div hlo hhi).mp hseg
    rw [mantissa_three_eq, Nat.shiftRight_eq_div_pow]
    omega
  · rw [segment_and_mantissa_three_iff hlo hhi hk, div_eq_sixteen_add_iff]
  · rw [hfour, Nat.shiftRight_eq_div_pow]
    omega
  · omega

/-- Settles O26: the bias and the clip keep the order of the magnitudes, and a higher code is a lower
byte. -/
theorem compressionIsMonotonic : Obligations.CompressionIsMonotonic := by
  intro shift a b hshift hsign habs
  have hlo := (biased_range (magnitude a)).1
  have hhi := (biased_range (magnitude b)).2
  have hle : biased (magnitude a) ≤ biased (magnitude b) :=
    biased_mono (by simpa only [magnitude_eq_natAbs] using habs.le)
  have hcode : ulawCode shift a ≤ ulawCode shift b := by
    have hfields := segment_mantissa_mono hshift hlo hle hhi
    rw [ulawCode_eq, ulawCode_eq, signBit_congr hsign]
    omega
  refine ⟨segment_mono hlo hle hhi, hcode, ?_⟩
  rw [enc1_toNat, enc1_toNat]
  omega

/-! ### Sign symmetry and saturation -/

/-- The sign is bit 7 of the code, and the rest depends on the magnitude alone (rules R147 and R157). -/
theorem ulawCode_of_neg {shift : Nat} {x y : Sample} (hx : 0 ≤ x.toInt) (hy : y.toInt < 0)
    (hmag : magnitude y = magnitude x) : ulawCode shift y = 128 + ulawCode shift x := by
  rw [ulawCode_eq, ulawCode_eq, hmag, signBit_of_neg hy, signBit_of_nonneg hx]
  omega

/-- Bit 7 of the output byte is the complement of the sign (rules R63 and R157). -/
theorem enc1_getLsbD_seven (x : Sample) : (enc1 3 x).getLsbD 7 = decide (0 ≤ x.toInt) := by
  have hfield := (outputByteFields 3 x (.inl rfl)).1
  rw [← BitVec.testBit_toNat, Nat.testBit_eq_decide_div_mod_eq, decide_eq_decide]
  split at hfield <;> omega

/-- Settles O27: opposite samples have one magnitude, so their codes differ in the sign bit alone. -/
theorem signSymmetry : Obligations.SignSymmetry := by
  refine ⟨fun x y hx hy => ?_, by decide, fun x => ?_, by decide⟩
  · have hmag : magnitude y = magnitude x := by
      rw [magnitude_eq_natAbs, magnitude_eq_natAbs, hy, Int.natAbs_neg]
    have hlt := ulawCode_lt 3 y
    have hcode := ulawCode_of_neg (shift := 3) (x := x) (y := y) (by omega) (by omega) hmag
    rw [enc1_toNat, enc1_toNat]
    omega
  · rw [enc1_getLsbD_seven]
    exact ⟨decide_eq_true, fun h => decide_eq_false (Int.not_le.mpr h)⟩

/-- From magnitude 31612 on the biased magnitude is in the last mantissa step (rule R158). -/
theorem biased_ge_of_saturated {mag : Nat} (h : 31612 ≤ mag) : 31744 ≤ biased mag := by
  unfold biased clip bias
  omega

/-- The last mantissa step is mantissa 15 of segment 7 (rules R154 and R158). -/
theorem segment_mantissa_of_saturated {m : Nat} (hlo : 31744 ≤ m) (hhi : m ≤ 32767) :
    segment m = 7 ∧ mantissa 3 7 m = 15 :=
  (segment_and_mantissa_three_iff (by omega) hhi le_rfl).mpr (by omega)

theorem enc1_toNat_of_saturated {x : Sample} (h : 31612 ≤ magnitude x) :
    (enc1 3 x).toNat = 128 - signBit x := by
  obtain ⟨hseg, hman⟩ :=
    segment_mantissa_of_saturated (biased_ge_of_saturated h) (biased_range (magnitude x)).2
  rw [enc1_toNat, ulawCode_eq, hseg, hman]
  omega

/-- Settles O28: from magnitude 31612 on the code is 127 and the sign. -/
theorem clipSaturatesTheOutput : Obligations.ClipSaturatesTheOutput := by
  intro x
  have hmag := magnitude_eq_natAbs x
  have hhi := (biased_range (magnitude x)).2
  refine ⟨fun h => BitVec.eq_of_toNat_eq ?_, fun h => BitVec.eq_of_toNat_eq ?_, hhi, fun h => ?_⟩
  · rw [enc1_toNat_of_saturated (by omega), signBit_of_nonneg (by omega)]
    rfl
  · rw [enc1_toNat_of_saturated (by omega), signBit_of_neg (by omega)]
    rfl
  · have hlo := biased_ge_of_saturated (hmag ▸ h)
    exact ⟨hlo, segment_mantissa_of_saturated hlo hhi⟩

/-- Settles O21: five values of the encoder. -/
theorem knownVectors : Obligations.KnownVectors := by
  unfold Obligations.KnownVectors
  decide

/-! ### The two commands -/

/-- Settles O18: the command answers by definition, and its operand is the sample's byte pair. -/
theorem ulawEncRespondsWithItsByte : Obligations.UlawEncRespondsWithItsByte := by
  intro x s
  refine ⟨rfl, ?_, by decide, by decide, by decide⟩
  obtain ⟨lo, hi, hbytes, rfl⟩ := sampleOf_sampleBytes x
  exact ⟨lo, hi, congrArg (0x01#8 :: ·) hbytes, sampleOf_toNat lo hi⟩

/-- Settles O19: the output is the encoder mapped over the samples. -/
theorem ulawEncSeqRespondsWithOneBytePerSample : Obligations.UlawEncSeqRespondsWithOneBytePerSample := by
  intro xs s
  refine ⟨xs.map (enc1 3), rfl, List.length_map _, fun k x h => ?_⟩
  rw [List.getElem?_map, h, Option.map_some]

/-- Encoding group by group is encoding sample by sample, with fuel for at least one group per sample: a
group of one lane or more leaves a shorter list (rules R151 and R240). -/
theorem encodeInLanes_eq_map {lanes : Nat} (shift : Nat) (hlanes : 1 ≤ lanes) {fuel : Nat}
    {xs : List Sample} (hfuel : xs.length ≤ fuel) :
    encodeInLanes shift lanes fuel xs = xs.map (enc1 shift) := by
  induction fuel generalizing xs with
  | zero => rw [List.eq_nil_of_length_eq_zero (Nat.le_zero.mp hfuel)]; rfl
  | succ fuel ih =>
    rw [encodeInLanes]
    split
    · next hnil => rw [hnil]; rfl
    · have hrest : (xs.drop lanes).length ≤ fuel := by
        rw [List.length_drop]
        omega
      rw [ih hrest, ← List.map_append, List.take_append_drop]

/-- Settles O31: with this hardware's lanes too, which are at least one. -/
theorem encoderLanesCannotBeObserved : Obligations.EncoderLanesCannotBeObserved := by
  refine ⟨fun shift _ _ hlanes => encodeInLanes_eq_map shift hlanes le_rfl, fun xs s => ?_⟩
  rw [encodeInLanes_eq_map 3 hw_encLanes_pos le_rfl]
  rfl

end Sys2Proof.Machine
end

section
/-! PROOFS. The end-to-end conversion: `WAV_TO_ULAW` on an attached buffer, and the three commands it stands
for (spec/43_pipeline.md rules R170 to R173). -/

namespace Sys2Proof.Machine

variable {s : State} {bytes : List Byte}

/-- Where the extractor fails on this hardware, `WAV_TO_ULAW` answers its status alone (rule R172). -/
theorem exec_wavToUlaw_of_failed {m : Memory} {st : Status} (hm : s.buf = some m)
    (h : extractData false m = .ok (.failed st)) :
    exec .wavToUlaw s = .next (s.answer ⟨st, none⟩) :=
  onBuffer_ok hm (wavToUlawResponse_of_failed _ h)

/-- Where every check passes, `WAV_TO_ULAW` on this hardware answers the payload's samples encoded (rules
R170 and R171). -/
theorem exec_wavToUlaw_of_payload {start size : Nat} (hbuf : s.buf = some (memoryOf bytes))
    (h : extractData false (memoryOf bytes) = .ok (.payload start size))
    (hin : start + size ≤ bytes.length) :
    exec .wavToUlaw s =
      .next (s.answer ⟨.ok, some (.codes ((unpack ((bytes.drop start).take size)).map (enc1 3)))⟩) :=
  onBuffer_ok hbuf (wavToUlawResponse_of_payload _ h hin)

/-- Settles O40: each clause is one answer of the extractor; where the payload lies inside the buffer, its
samples are counted and valued by `unpack_slice_length` and `unpack_slice_toInt`. -/
theorem wavToUlawEncodesThePayload : Obligations.WavToUlawEncodesThePayload := by
  intro bytes s hbuf
  refine ⟨fun hno => ?noTag, fun o hfirst htrunc => ?truncated, fun o hfirst hin => ?inside⟩
  case noTag => exact exec_wavToUlaw_of_failed hbuf (extractData_of_noTag hno)
  case truncated => exact exec_wavToUlaw_of_failed hbuf (extractData_of_truncated hfirst htrunc)
  case inside =>
    have hlen := unpack_slice_length hin
    refine ⟨_, exec_wavToUlaw_of_payload hbuf (extractData_of_inside hfirst hin) hin,
      (List.length_map _).trans hlen, fun k hk => ?_⟩
    have hx := List.getElem?_eq_getElem (hk.trans_eq hlen.symm)
    exact ⟨_, by rw [List.getElem?_map, hx, Option.map_some], unpack_slice_toInt hx⟩

/-- Settles O41: the extractor decides both commands. Where it fails they answer the same status; where it
answers a payload, the Host's slice of the bytes is what the Block reads, and the last answer of the three
commands replaces the two before it. -/
theorem pipelineEqualsTheThreeCommands : Obligations.PipelineEqualsTheThreeCommands := by
  intro bytes s s1 hbuf hext
  obtain ⟨_, -, hx⟩ | ⟨_, _, hin, -, hx⟩ := extractData_failed_or_inside false bytes
  · rw [exec_dataExtract_of_failed hbuf hx] at hext
    cases hext
    exact ⟨fun _ _ => exec_wavToUlaw_of_failed hbuf hx, fun _ _ hresp => (nomatch hresp)⟩
  · rw [exec_dataExtract_of_payload hbuf hx] at hext
    cases hext
    refine ⟨fun _ hresp => (nomatch hresp), fun start size hresp => ?_⟩
    cases hresp
    exact ⟨_, _, rfl, rfl, exec_wavToUlaw_of_payload hbuf hx hin⟩

end Sys2Proof.Machine
end

section
/-! PROOFS. The statements on the statuses and on completion (spec/60_exceptions.md rules R200, R201 and
R206, spec/70_reset_and_hazards.md rule R239). -/

namespace Sys2Proof.Machine

/-- Settles O50: the block of this hardware is the configured one at a legal configuration, where every
pending command of a sound state answers; an answer changes only `pending` and `resp`. -/
theorem everyPendingCommandCompletes : Obligations.EveryPendingCommandCompletes := by
  intro s i hinv hp
  rw [← execWith_hw]
  exact execWith_completes hw_legal hinv hp

/-- Settles O44: three of the commands compute their result from their operands alone, and the scan of an
attached buffer always ends with an answer (`chunkFindReturnsTheFirstMatch`). -/
theorem fourCommandsAlwaysRespondOk : Obligations.FourCommandsAlwaysRespondOk := by
  rintro i s (⟨x, rfl⟩ | ⟨xs, rfl⟩ | ⟨bs, rfl⟩ | ⟨⟨id, rfl⟩, bytes, hbuf⟩)
  · exact ⟨.code (enc1 3 x), rfl⟩
  · exact ⟨.codes (xs.map (enc1 3)), rfl⟩
  · exact ⟨.samples (unpack bs), rfl⟩
  · obtain ⟨o, hexec, -⟩ := chunkFindReturnsTheFirstMatch id bytes s hbuf
    exact ⟨.offset o, hexec⟩

/-- The Host tells the statuses apart by their bytes: `statusOfByte` reads each one back (rule R200). -/
theorem statusByte_injective : Function.Injective statusByte := by
  intro st st' h
  have hread := congrArg statusOfByte h
  simpa only [statusOfByte_statusByte, Option.some.injEq] using hread

theorem statusByte_toNat_le (st : Status) : (statusByte st).toNat ≤ 3 := by
  cases st <;> decide

/-- Settles O53: the four bytes are those of rule R200's table, and the byte form of a response is its
status byte followed by what result there is. -/
theorem statusBytes : Obligations.StatusBytes :=
  ⟨rfl, rfl, rfl, rfl, fun _ => rfl, fun _ _ h => statusByte_injective h, statusByte_toNat_le⟩

end Sys2Proof.Machine
end

section
/-! PROOFS. One command served: issued, performed and its response taken, and a stream of them
(spec/70_reset_and_hazards.md rules R233 and R241). -/

namespace Sys2Proof.Machine

variable {s t : State}

/-- The state after commands have been issued, performed and their responses `rs` taken (rules R26 and
R233): the stream stands at `rest` and the schedule at `ms`. -/
def State.served (s : State) (rs : List Response) (rest : List Byte) (ms : List Move) : State :=
  { s with pending := none, resp := none, stream := rest, moves := ms, taken := s.taken ++ rs }

theorem State.served_nil (hp : s.pending = none) (hr : s.resp = none) (hs : s.stream = [])
    (hm : s.moves = []) : s.served [] [] [] = s := by
  cases s
  cases hp
  cases hr
  cases hs
  cases hm
  rw [State.served, List.append_nil]

theorem State.served_served (rs rs' : List Response) (rest rest' : List Byte) (ms ms' : List Move) :
    (s.served rs rest ms).served rs' rest' ms' = s.served (rs ++ rs') rest' ms' := by
  simp only [State.served, List.append_assoc]

/-- From a sound state with nothing pending, the command at the head of the stream is served in three
steps, with the response that it has on this buffer, and the state is sound again. -/
theorem runSteps_three_serves {i : Instr} {rest : List Byte} {ms : List Move} (hinv : s.Inv)
    (hp : s.pending = none) (hd : decode s.stream = .whole i rest)
    (hbuf : i.readsBuffer = true → s.buf ≠ none) (hm : s.moves = .issue :: .perform :: .take :: ms) :
    ∃ r, respondsTo s.buf i r ∧ runSteps 3 s = .next (s.served [r] rest ms) ∧
      (s.served [r] rest ms).Inv := by
  have hissued (ms' : List Move) : ((s.withMoves ms').issued i rest).Inv :=
    (hinv.withMoves ms').issued (decode_wellFormed hd) hbuf rest
  obtain ⟨r, hexec, hfits⟩ := everyPendingCommandCompletes _ i (hissued (.take :: ms)) rfl
  obtain ⟨-, htwo⟩ := streamHeadIsDecodedAndPerformed s (.take :: ms) i rest hm hp hd hbuf
  have hrun : runSteps 3 s = .next (s.served [r] rest ms) :=
    calc runSteps 3 s
        = runSteps 1 (((s.withMoves (.take :: ms)).issued i rest).answer r) :=
          runSteps_add (htwo.trans hexec) 1
      _ = .next (s.served [r] rest ms) :=
          (runSteps_one _).trans (takeReturnsTheResponse _ ms r rfl rfl)
  exact ⟨r, ⟨(s.withMoves (.take :: ms)).issued i rest, _, rfl, hexec, rfl⟩, hrun,
    ((hissued ms).answer hfits).afterTake rfl⟩

/-- A stream of commands is served in three steps for each. A response left from before the stream is
dropped by the first issue, so only the empty stream needs that there is none. -/
theorem runSteps_serves_stream (is : List Instr) (hinv : s.Inv) (hp : s.pending = none)
    (his : ∀ i ∈ is, i.wellFormed = true ∧ (i.readsBuffer = true → s.buf ≠ none))
    (hs : s.stream = is.flatMap encode) (hm : s.moves = is.flatMap (fun _ => [.issue, .perform, .take]))
    (hresp : is = [] → s.resp = none) :
    ∃ rs, List.Forall₂ (respondsTo s.buf) is rs ∧
      runSteps (3 * is.length) s = .next (s.served rs [] []) := by
  induction is generalizing s with
  | nil =>
    exact ⟨[], .nil, congrArg _ (State.served_nil hp (hresp rfl) hs hm).symm⟩
  | cons i is ih =>
    obtain ⟨⟨hform, hbuf⟩, his⟩ := List.forall_mem_cons.1 his
    have hd : decode s.stream = .whole i (is.flatMap encode) := by
      rw [hs, List.flatMap_cons, decode_encode_append i _ hform]
    obtain ⟨r, hr, hthree, hserved⟩ := runSteps_three_serves hinv hp hd hbuf hm
    obtain ⟨rs, hrs, hrest⟩ := ih hserved rfl his rfl rfl fun _ => rfl
    refine ⟨r :: rs, .cons hr hrs, ?_⟩
    calc runSteps (3 * (is.length + 1)) s
        = runSteps (3 + 3 * is.length) s := by rw [Nat.mul_succ, Nat.add_comm]
      _ = .next (s.served (r :: rs) [] []) := by
          rw [runSteps_add hthree, hrest, State.served_served, List.singleton_append]

/-- With nothing pending and no byte left to issue from, the run is over. -/
theorem State.over_of_commandStream_nil (hp : s.pending = none) (hs : s.commandStream = []) : s.over := by
  refine ⟨hp, fun i rest hd => ?_⟩
  rw [hs] at hd
  cases hd

/-- Settles O51: each command of the stream is served in three steps, by induction on the commands; after
the last one the stream and the schedule are empty. -/
theorem streamOfCommandsRunsInOrder : Obligations.StreamOfCommandsRunsInOrder := by
  intro is s hinv hp his hs hm hne
  obtain ⟨rs, hrs, hrun⟩ := runSteps_serves_stream is hinv hp his hs hm fun h => absurd h hne
  exact ⟨rs, _, hrs, hrun, rfl, State.over_of_commandStream_nil rfl rfl, List.append_nil _⟩

end Sys2Proof.Machine
end

section
/-! PROOFS. The statements on reset, on the buffer while a command is pending, and on the end of a run
(spec/10_state.md rule R26, spec/70_reset_and_hazards.md rules R230 to R234, R239 and R241). -/

namespace Sys2Proof.Machine

variable {s t : State}

/-! ### What `issue` does without a buffer, and the empty schedule with nothing pending -/

theorem doIssue_of_noBuffer {i : Instr} {rest : List Byte} (hp : s.pending = none)
    (hd : decode s.stream = .whole i rest) (hi : i.readsBuffer = true) (hb : s.buf = none) :
    doIssue s = .refused .noBufferAttached := by
  simp [doIssue, hp, hd, hi, hb]

theorem doNoMove_of_nothingPending {perf : Performer} (hp : s.pending = none) :
    doNoMove perf s = .refused .noMove := by
  simp only [doNoMove, hp]

/-! ### The end of a run -/

theorem State.commandStream_of_moves_nil (hm : s.moves = []) : s.commandStream = s.stream := by
  simp [State.commandStream, hm]

/-- Nothing can be issued from an over state: what decodes from the bytes sent decodes from them with the
bytes still to come (rule R72). -/
theorem State.over.decode_stream_ne_whole (h : s.over) (i : Instr) (rest : List Byte) :
    decode s.stream ≠ .whole i rest := by
  obtain ⟨-, hnone⟩ := h
  exact fun hd => hnone i _ (decode_extend hd _)

/-- Everything a step can do when the run is over: four of the six moves are left, and each keeps
`pending` empty and the command stream as it is. -/
theorem State.over.step_next (h : s.over) (hstep : step s = .next t) :
    t.pending = none ∧ t.commandStream = s.commandStream ∧
      ((∃ ms, s.moves = .reset :: ms) ∨ t.observation = s.observation) := by
  have hp : s.pending = none := h.1
  obtain ⟨-, i, hi, -⟩ | ⟨mv, ms, hm, hmove⟩ := stepOf_next hstep
  · cases hp.symm.trans hi
  · rw [State.commandStream_cons hm]
    obtain ⟨rfl, rfl⟩ | ⟨bytes, rfl, -, -, rfl⟩ | ⟨bytes, rfl, rfl⟩ |
      ⟨-, -, i, rest, hd, -⟩ | ⟨rfl, r, hr, rfl⟩ | ⟨-, i, hi, -⟩ := hmove
    · exact ⟨rfl, rfl, .inl ⟨ms, hm⟩⟩
    · exact ⟨hp, rfl, .inr rfl⟩
    · exact ⟨hp, List.append_assoc .., .inr rfl⟩
    · exact absurd hd (h.decode_stream_ne_whole i rest)
    · exact ⟨hp, rfl, .inr (by simp [State.observation, hr])⟩
    · cases hp.symm.trans hi

/-- Settles O56: `State.over` speaks of `pending` and the command stream alone, and a step from an over
state keeps both. -/
theorem overRunStaysOver : Obligations.OverRunStaysOver := by
  intro s t hover hstep
  obtain ⟨hp, hs, hobs⟩ := hover.step_next hstep
  obtain ⟨-, hnone⟩ := hover
  refine ⟨⟨hp, fun i rest => hs ▸ hnone i rest⟩, fun hreset => ?_⟩
  exact hobs.resolve_left fun ⟨ms, hm⟩ => hreset ms hm

/-- With no move left, a pending command of a sound state is performed and answered (rules R239 and
R241). -/
theorem step_answers_pending (hinv : s.Inv) (hm : s.moves = []) (hp : s.pending ≠ none) :
    ∃ r, step s = .next (s.answer r) := by
  obtain ⟨i, hi⟩ := Option.ne_none_iff_exists'.1 hp
  obtain ⟨r, hexec, -⟩ := everyPendingCommandCompletes s i hinv hi
  obtain ⟨-, hperform⟩ := performStepRunsPendingCommand s [] i hi
  exact ⟨r, (hperform hm).trans hexec⟩

/-- With no move left, the machine rests exactly when nothing is pending (assumption log 3). -/
theorem step_eq_noMove_iff (hinv : s.Inv) (hm : s.moves = []) :
    step s = .refused .noMove ↔ s.pending = none := by
  constructor
  · intro hrest
    by_contra hp
    obtain ⟨r, hnext⟩ := step_answers_pending hinv hm hp
    cases hrest.symm.trans hnext
  · exact fun hp => (step_of_moves_nil hm).trans (doNoMove_of_nothingPending hp)

/-- Settles O52: a pending command of a sound state is answered, so only the lack of one is a rest; with no
move left the command stream is what has been sent. -/
theorem runEndsOnlyWithNothingPending : Obligations.RunEndsOnlyWithNothingPending := by
  intro s hinv hm
  have hrest := step_eq_noMove_iff hinv hm
  refine ⟨hrest, fun hp => ?_, ?_⟩
  · obtain ⟨r, hnext⟩ := step_answers_pending hinv hm hp
    exact ⟨s.answer r, hnext, rfl, nofun⟩
  · rw [hrest, State.over, State.commandStream_of_moves_nil hm]

/-! ### Reset and the buffer -/

/-- Settles O46: `attach` is not enabled while a command is pending, so only a reset touches the
buffer. -/
theorem bufferIsStableWhilePending : Obligations.BufferIsStableWhilePending := by
  intro s t hp hstep
  obtain ⟨-, i, -, hexec⟩ | ⟨mv, ms, hm, hmove⟩ := stepOf_next hstep
  · obtain ⟨r, rfl⟩ := exec_next hexec
    exact .inl (s.answer_buf r)
  · obtain ⟨rfl, rfl⟩ | ⟨bytes, -, hnone, -⟩ | ⟨bytes, -, rfl⟩ |
      ⟨-, hnone, -⟩ | ⟨-, r, -, rfl⟩ | ⟨-, i, -, hexec⟩ := hmove
    · exact .inr ⟨⟨ms, hm⟩, rfl, rfl, rfl⟩
    · exact absurd hnone hp
    · exact .inl rfl
    · exact absurd hnone hp
    · exact .inl rfl
    · obtain ⟨r, rfl⟩ := exec_next hexec
      exact .inl rfl

/-- Settles O2: the move `reset` has no condition, and `State.afterReset` empties the block's fields
alone. -/
theorem resetMoveEmptiesTheBlock : Obligations.ResetMoveEmptiesTheBlock := by
  intro s ms hm
  exact ⟨(s.withMoves ms).afterReset, step_of_moves_cons hm, rfl, rfl, rfl, rfl⟩

/-- Settles O6: the seven commands, split by `Instr.readsBuffer`. -/
theorem bufferCommandsNeedAnAttachedBuffer : Obligations.BufferCommandsNeedAnAttachedBuffer := by
  intro s ms i rest hm hp hd hb
  have hrefused (hi : i.readsBuffer = true) : step s = .refused .noBufferAttached :=
    (step_of_moves_cons hm).trans (doIssue_of_noBuffer hp hd hi hb)
  have hissued (hi : i.readsBuffer = false) : step s = .next ((s.withMoves ms).issued i rest) :=
    (step_of_moves_cons hm).trans (doIssue_of_enabled hp hd (by simp [hi]))
  constructor
  · rintro (⟨id, rfl⟩ | rfl | rfl) <;> exact hrefused rfl
  · rintro (⟨x, rfl⟩ | ⟨xs, rfl⟩ | ⟨bs, rfl⟩ | ⟨op, rfl⟩) <;> exact hissued rfl

end Sys2Proof.Machine
end

section
/-! PROOFS. The statement on what a reset leaves to the Host (spec/70_reset_and_hazards.md rule R230 and
assumption log 2). -/

namespace Sys2Proof.Machine

/-- The state that a reset step ends in, in full: the move is consumed and the block is emptied. -/
theorem step_of_reset {s : State} {ms : List Move} (hm : s.moves = .reset :: ms) :
    step s = .next (s.withMoves ms).afterReset :=
  step_of_moves_cons hm

/-- Settles O3: neither consuming the move nor `State.afterReset` writes the stream or the responses
taken. -/
theorem resetMoveLeavesTheHostSide : Obligations.ResetMoveLeavesTheHostSide := by
  intro s t ms hm hstep
  have ht : t = (s.withMoves ms).afterReset := by
    rw [step_of_reset hm] at hstep
    exact (Host.Outcome.next.inj hstep).symm
  subst ht
  simp only [State.afterReset_stream, State.afterReset_moves, State.afterReset_taken,
    State.withMoves_stream, State.withMoves_moves, State.withMoves_taken, and_self]

end Sys2Proof.Machine
end
